-- ==== Sys2Proof/Word.lean ====
section
/-! DEFINITION. The types of 00_scope.md R9 and R10 and 30_encoding.md R60 to R62: words, choices, command words,
register numbers, immediates and fixed-width integers. -/

namespace Sys2Proof

/-- A machine word of `W` bits, bit 0 the least significant (R9, R10). A limb is a `Word`. -/
abbrev Word (W : Nat) := BitVec W

/-- The "choice value" of R10, one bit, `true` stored as 1. -/
abbrev Choice := Bool

/-- A command word: exactly 32 bits, bit 31 the most significant (R60, R61). -/
abbrev CmdWord := BitVec 32

/-- A register number: `NREG = 8` big-integer registers `u[0]` to `u[7]` (R8, R20). -/
abbrev RegNum := Fin 8

/-- The unsigned 18-bit immediate, a shift amount or a limb index (R62). -/
abbrev Imm18 := BitVec 18

/-- A fixed-width unsigned integer: exactly `L` limbs of `W` bits, least significant limb first (R10, R21, R40). -/
abbrev UInt (W L : Nat) := Vector (Word W) L

end Sys2Proof
end

