-- ==== Sys2Proof/Config.lean ====
section
/-! DEFINITION. What a build of the block fixes (00_scope.md R7, R8), and the values the spec leaves open, as constants
with no body: nothing can compute or prove a value of one. -/

namespace Sys2Proof

/-- The build parameters of R7 with R7's constraints: an instance outside them cannot be written down. -/
structure Params where
  /-- Width of a machine word in bits. -/
  W : Nat
  /-- Number of limbs of every fixed-width integer. -/
  LIMBS : Nat
  wide_enough : 8 ≤ W
  has_limb : 1 ≤ LIMBS
  encodable : LIMBS * W ≤ 2 ^ 17 - 1
deriving DecidableEq, Repr

/-- `TB = LIMBS * W`, the total bit width (R7). -/
abbrev Params.TB (c : Params) : Nat := c.LIMBS * c.W

/-- The instance `Machine.State.reset` and `decodeTableWord` are given for: `W = 64`, `LIMBS = 4`, one of the two the spec
gives 256-bit vectors for. DESIGN CHOICE, log 1; the machine itself is defined for every `Params`. -/
def Config.build : Params := ⟨64, 4, by decide, by decide, by decide⟩

/-- The word that the `k`-th draw answers where a limb is unspecified (10_state.md R32; 93 U1 "any value, drawn afresh at
each read"). FREE VALUE, log 4. -/
opaque Config.freeWord (W k : Nat) : Word W

/-- The choice that the `k`-th draw answers: whether SHL1C of an unspecified register sets the carry mask (R32).
FREE VALUE, log 4. -/
opaque Config.freeChoice (k : Nat) : Choice

/-- `a << k` for `k >= W`, "not defined" (R97; 93 U2). FREE VALUE, log 10. -/
opaque Config.shlOver (W : Nat) (a : Word W) (k : Nat) : Word W

/-- `a >> k` for `k >= W`, "not a well-defined word operation" (R98; 93 U2). FREE VALUE, log 10. -/
opaque Config.shrOver (W : Nat) (a : Word W) (k : Nat) : Word W

/-- The OPEN parameter `latency` (R8, R220), less one cycle, so that `Config.latency` is positive. FREE VALUE, log 9. -/
opaque Config.extraCycles (w : CmdWord) (W LIMBS : Nat) : Nat

/-- R220: a positive finite number of cycles, a function of the command word, `W` and `LIMBS` only. No rule of the machine
depends on it; `Safety.lean` observes it. -/
def Config.latency (w : CmdWord) (W LIMBS : Nat) : Nat := Config.extraCycles w W LIMBS + 1

end Sys2Proof
end

