-- ==== Sys2Proof/Syntax.lean ====
section
/-! DEFINITION. The fifteen commands of 30_encoding.md R64, one constructor for each row of opcode_table.json. -/

namespace Sys2Proof

/-- A command without its data word (`wdata` is not part of the encoding, R60). The suffixes `W` and `F` are the
conventions `.W` (wraparound) and `.F` (flagged) of R63. -/
inductive Instr where
  /-- `LDL ur, #idx` (R180) -/
  | ldl (r : RegNum) (idx : Imm18)
  /-- `STL ur, #idx` (R181) -/
  | stl (r : RegNum) (idx : Imm18)
  /-- `RDC` (R182) -/
  | rdc
  /-- `RDS` (R183) -/
  | rds
  /-- `AND urd, urs1, urs2` (R111) -/
  | and (rd rs1 rs2 : RegNum)
  /-- `AND.W urd, urs1, urs2` (R112) -/
  | andW (rd rs1 rs2 : RegNum)
  /-- `AND.F urd, urs1, urs2` (R113) -/
  | andF (rd rs1 rs2 : RegNum)
  /-- `SHL1C urd, urs1` (R121) -/
  | shl1c (rd rs1 : RegNum)
  /-- `SHL urd, urs1, #n` (R133) -/
  | shl (rd rs1 : RegNum) (n : Imm18)
  /-- `SHL.W urd, urs1, #n` (R135) -/
  | shlW (rd rs1 : RegNum) (n : Imm18)
  /-- `SHL.F urd, urs1, #n` (R136) -/
  | shlF (rd rs1 : RegNum) (n : Imm18)
  /-- `SHR urd, urs1, #n` (R148) -/
  | shr (rd rs1 : RegNum) (n : Imm18)
  /-- `SHR.W urd, urs1, #n` (R149) -/
  | shrW (rd rs1 : RegNum) (n : Imm18)
  /-- `SHR.F urd, urs1, #n` (R150) -/
  | shrF (rd rs1 : RegNum) (n : Imm18)
  /-- `SHLW url, urh, #n` (R162) -/
  | shlw (rl rh : RegNum) (n : Imm18)
deriving DecidableEq, Repr

end Sys2Proof
end

