-- ==== Sys2Proof/WellFormed.lean ====
section
/-! DEFINITION. The extra constraints of 30_encoding.md R64: what a command must meet beside its word matching its row.
Register numbers and immediates are in range by their types. -/

namespace Sys2Proof

/-- R64, R65 (3): `imm18 < LIMBS` for LDL and STL, `ra != rb` for SHLW, nothing more for the others. -/
def Instr.wf (LIMBS : Nat) : Instr → Bool
  | .ldl _ idx => decide (idx.toNat < LIMBS)
  | .stl _ idx => decide (idx.toNat < LIMBS)
  | .rdc => true
  | .rds => true
  | .and _ _ _ => true
  | .andW _ _ _ => true
  | .andF _ _ _ => true
  | .shl1c _ _ => true
  | .shl _ _ _ => true
  | .shlW _ _ _ => true
  | .shlF _ _ _ => true
  | .shr _ _ _ => true
  | .shrW _ _ _ => true
  | .shrF _ _ _ => true
  | .shlw rl rh _ => decide (rl ≠ rh)

end Sys2Proof
end

