-- ==== Sys2Proof/Decode.lean ====
section
/-! DEFINITION. Decoding (30_encoding.md R61, R64, R65, R66) and encoding (R68) of command words. -/

namespace Sys2Proof

/-! Fields of a command word (R61). -/

def fieldOp (w : CmdWord) : BitVec 6 := w.extractLsb' 26 6
def fieldCv (w : CmdWord) : BitVec 2 := w.extractLsb' 24 2
def fieldRa (w : CmdWord) : RegNum := (w.extractLsb' 21 3).toFin
def fieldRb (w : CmdWord) : RegNum := (w.extractLsb' 18 3).toFin
def fieldRc (w : CmdWord) : RegNum := (w.extractLsb' 15 3).toFin
def fieldImm18 (w : CmdWord) : Imm18 := w.extractLsb' 0 18

/-- One row of R64's map: a word `w` selects it iff `w & mask = pattern` (the table's `match`). -/
structure Row where
  mnemonic : String
  pattern : CmdWord
  mask : CmdWord
  make : CmdWord → Instr

/-- R64, the complete map. -/
def rows : List Row := [
  ⟨"LDL", 0x04000000, 0xFF1C0000, fun w => .ldl (fieldRa w) (fieldImm18 w)⟩,
  ⟨"STL", 0x08000000, 0xFF1C0000, fun w => .stl (fieldRa w) (fieldImm18 w)⟩,
  ⟨"RDC", 0x0C000000, 0xFFFFFFFF, fun _ => .rdc⟩,
  ⟨"RDS", 0x10000000, 0xFFFFFFFF, fun _ => .rds⟩,
  ⟨"AND", 0x20000000, 0xFF007FFF, fun w => .and (fieldRa w) (fieldRb w) (fieldRc w)⟩,
  ⟨"AND.W", 0x21000000, 0xFF007FFF, fun w => .andW (fieldRa w) (fieldRb w) (fieldRc w)⟩,
  ⟨"AND.F", 0x22000000, 0xFF007FFF, fun w => .andF (fieldRa w) (fieldRb w) (fieldRc w)⟩,
  ⟨"SHL1C", 0x24000000, 0xFF03FFFF, fun w => .shl1c (fieldRa w) (fieldRb w)⟩,
  ⟨"SHL", 0x28000000, 0xFF000000, fun w => .shl (fieldRa w) (fieldRb w) (fieldImm18 w)⟩,
  ⟨"SHL.W", 0x29000000, 0xFF000000, fun w => .shlW (fieldRa w) (fieldRb w) (fieldImm18 w)⟩,
  ⟨"SHL.F", 0x2A000000, 0xFF000000, fun w => .shlF (fieldRa w) (fieldRb w) (fieldImm18 w)⟩,
  ⟨"SHR", 0x2C000000, 0xFF000000, fun w => .shr (fieldRa w) (fieldRb w) (fieldImm18 w)⟩,
  ⟨"SHR.W", 0x2D000000, 0xFF000000, fun w => .shrW (fieldRa w) (fieldRb w) (fieldImm18 w)⟩,
  ⟨"SHR.F", 0x2E000000, 0xFF000000, fun w => .shrF (fieldRa w) (fieldRb w) (fieldImm18 w)⟩,
  ⟨"SHLW", 0x30000000, 0xFF000000, fun w => .shlw (fieldRa w) (fieldRb w) (fieldImm18 w)⟩]

/-- Why a word is illegal: the six sub-cases (a) to (f) of R66. The block does not tell them apart (R191); the decoder
names the first that holds, in the order of R66 (log 12). -/
inductive Illegal where
  /-- (a) `op` is not one of the nine assigned opcodes -/
  | unassignedOp
  /-- (b) `cv = 11` -/
  | reservedCv
  /-- (c) `cv != 00` with LDL, STL, RDC, RDS, SHL1C or SHLW -/
  | conventionNotOffered
  /-- (d) a one in a must-be-zero field -/
  | mustBeZero
  /-- (e) LDL or STL with `imm18 >= LIMBS` -/
  | limbIndex
  /-- (f) SHLW with `ra == rb` -/
  | sameRegister
deriving DecidableEq, Repr

/-- The nine assigned opcodes (R64, R66 (a)), and those with `.W` and `.F` forms (R63). -/
def assignedOps : List (BitVec 6) :=
  [0b000001, 0b000010, 0b000011, 0b000100, 0b001000, 0b001001, 0b001010, 0b001011, 0b001100]
def conventionOps : List (BitVec 6) := [0b001000, 0b001010, 0b001011]

/-- The name for a word that no row matches. -/
def whyNoRow (w : CmdWord) : Illegal :=
  if fieldOp w ∉ assignedOps then .unassignedOp
  else if fieldCv w = 0b11 then .reservedCv
  else if fieldCv w ≠ 0b00 ∧ fieldOp w ∉ conventionOps then .conventionNotOffered
  else .mustBeZero

/-- The name for a word whose row's extra constraint fails. -/
def whyConstraint : Instr → Illegal
  | .shlw _ _ _ => .sameRegister
  | _ => .limbIndex

/-- R65 (1): the row a word selects. At most one passes (R64), so the order of the rows does not matter. -/
def rowOf (w : CmdWord) : Option Row := rows.find? fun r => w &&& r.mask == r.pattern

/-- R65: a total function of the word and `LIMBS`. -/
def decode (LIMBS : Nat) (w : CmdWord) : Except Illegal Instr :=
  match rowOf w with
  | none => .error (whyNoRow w)
  | some r => if (r.make w).wf LIMBS then .ok (r.make w) else .error (whyConstraint (r.make w))

/-! Encoding (R68). -/

/-- The fields laid out as R61 has them: `op[31:26] cv[25:24] ra[23:21] rb[20:18] low[17:0]`. -/
def layout (op : BitVec 6) (cv : BitVec 2) (ra rb : RegNum) (low : Imm18) : CmdWord :=
  op ++ cv ++ (BitVec.ofFin ra : BitVec 3) ++ (BitVec.ofFin rb : BitVec 3) ++ low

/-- `low = rc << 15` of format RRR, `w[14:0]` zero. -/
def lowRRR (rc : RegNum) : Imm18 := (BitVec.ofFin rc : BitVec 3) ++ (0 : BitVec 15)

/-- R68: the inverse of decoding; unused register fields are zero. -/
def encode : Instr → CmdWord
  | .ldl r idx => layout 0b000001 0b00 r 0 idx
  | .stl r idx => layout 0b000010 0b00 r 0 idx
  | .rdc => layout 0b000011 0b00 0 0 0
  | .rds => layout 0b000100 0b00 0 0 0
  | .and rd rs1 rs2 => layout 0b001000 0b00 rd rs1 (lowRRR rs2)
  | .andW rd rs1 rs2 => layout 0b001000 0b01 rd rs1 (lowRRR rs2)
  | .andF rd rs1 rs2 => layout 0b001000 0b10 rd rs1 (lowRRR rs2)
  | .shl1c rd rs1 => layout 0b001001 0b00 rd rs1 0
  | .shl rd rs1 n => layout 0b001010 0b00 rd rs1 n
  | .shlW rd rs1 n => layout 0b001010 0b01 rd rs1 n
  | .shlF rd rs1 n => layout 0b001010 0b10 rd rs1 n
  | .shr rd rs1 n => layout 0b001011 0b00 rd rs1 n
  | .shrW rd rs1 n => layout 0b001011 0b01 rd rs1 n
  | .shrF rd rs1 n => layout 0b001011 0b10 rd rs1 n
  | .shlw rl rh n => layout 0b001100 0b00 rl rh n

/-- The command a table word of `nbits` bits decodes to at the build of `Config.build`; bits above `nbits` are zero. -/
def decodeTableWord (nbits w : Nat) : Option Instr :=
  match decode Config.build.LIMBS (BitVec.ofNat 32 (w % 2 ^ nbits)) with
  | .ok i => some i
  | .error _ => none

end Sys2Proof
end

