-- ==== Sys2Proof/Machine/Operands.lean ====
section
/-! DEFINITION. The pure functions of the spec: word primitives (40_limb_primitives.md R90 to R98), fixed-width integers
and their values (00_scope.md R10), and the integer functions of 41_bitand.md to 45_wide_shift.md. -/

namespace Sys2Proof.Machine

variable {W L : Nat}

/-! ## Word primitives -/

/-- R90 -/
def wordAnd (a b : Word W) : Word W := a &&& b

/-- R91: `(2 * a) mod 2^W` -/
def shiftLeftOne (a : Word W) : Word W := BitVec.ofNat W (2 * a.toNat)

/-- R92: `floor(a / 2^(W-1))`, the bit `shiftLeftOne` discards, in the low position -/
def topBit (a : Word W) : Word W := BitVec.ofNat W (a.toNat / 2 ^ (W - 1))

/-- R93: the SECOND argument on `true`. No command uses it (R101). -/
def select (a b : Word W) (choice : Choice) : Word W := if choice then b else a

/-- R94 -/
def isNonzero (a : Word W) : Choice := decide (a ≠ 0)

/-- R95: all ones on `true`, zero on `false` -/
def broadcast (W : Nat) (choice : Choice) : Word W := if choice then BitVec.allOnes W else 0

/-- R96 -/
def wordOr (a b : Word W) : Word W := a ||| b

/-- R97: `(a * 2^k) mod 2^W` for `k < W`; no defined value otherwise (93 U2; log 10) -/
def wordShl (a : Word W) (k : Nat) : Word W :=
  if k < W then BitVec.ofNat W (a.toNat * 2 ^ k) else Config.shlOver W a k

/-- R98: `floor(a / 2^k)` for `k < W`; no defined value otherwise (93 U2; log 10) -/
def wordShr (a : Word W) (k : Nat) : Word W :=
  if k < W then BitVec.ofNat W (a.toNat / 2 ^ k) else Config.shrOver W a k

/-! ## Fixed-width integers and their values (R10) -/

/-- The value of limbs listed least significant first. -/
def valLimbs : List (Word W) → Nat
  | [] => 0
  | x :: xs => x.toNat + 2 ^ W * valLimbs xs

/-- `val(a)`, the sum of `a.limbs[i] * 2^(i*W)` -/
def val (a : UInt W L) : Nat := valLimbs a.toList

/-- `from_val(v)`: `limbs[i] = floor(v / 2^(i*W)) mod 2^W` -/
def fromVal (W L v : Nat) : UInt W L := Vector.ofFn fun i => BitVec.ofNat W (v / 2 ^ (i.val * W))

/-- ZERO: every limb 0 -/
def zeroUInt (W L : Nat) : UInt W L := Vector.ofFn fun _ => 0

/-- ONE: `limbs[0] = 1`, every other limb 0 -/
def oneUInt (W L : Nat) : UInt W L := Vector.ofFn fun i => if i.val = 0 then 1 else 0

/-- MAX: every limb `2^W - 1` -/
def maxUInt (W L : Nat) : UInt W L := Vector.ofFn fun _ => BitVec.allOnes W

/-- `a.limbs[i]` at an index that a formula computes; inside `[0, LIMBS)` wherever a rule uses it. -/
def limbAt (a : UInt W L) (i : Nat) : Word W := a[i]?.getD 0

/-! ## The integer functions -/

/-- R110 -/
def bitand (a b : UInt W L) : UInt W L := Vector.ofFn fun i => wordAnd a[i] b[i]

/-- Limb-wise OR of whole integers, the reading R160 gives of `|` -/
def uintOr (a b : UInt W L) : UInt W L := Vector.ofFn fun i => wordOr a[i] b[i]

/-- R120: `carry_bit[i] = top_bit(a.limbs[i])` -/
def carryBit (a : UInt W L) (i : Nat) : Word W := topBit (limbAt a i)

/-- R120: the shifted integer and the carry mask. Every bit comes from the input `a`. -/
def shiftLeftOneWithCarry (a : UInt W L) : UInt W L × Word W :=
  (Vector.ofFn fun i =>
      if i.val = 0 then shiftLeftOne a[i] else wordOr (shiftLeftOne a[i]) (carryBit a (i.val - 1)),
    broadcast W (isNonzero (carryBit a (L - 1))))

/-- R130 (contract) with R131 (saturation): `(val(a) * 2^n) mod 2^TB` (log 11) -/
def shiftLeftVartime (a : UInt W L) (n : Nat) : UInt W L :=
  if L * W ≤ n then zeroUInt W L else fromVal W L (val a * 2 ^ n % 2 ^ (L * W))

/-- R145 (contract) with R146 (saturation): `floor(val(a) / 2^n)` (log 11) -/
def shiftRightVartime (a : UInt W L) (n : Nat) : UInt W L :=
  if L * W ≤ n then zeroUInt W L else fromVal W L (val a / 2 ^ n)

/-- R160: the pair is (lower, upper); both folds use the ORIGINAL `lower`. -/
def shiftLeftVartimeWide (lower upper : UInt W L) (n : Nat) : UInt W L × UInt W L :=
  (shiftLeftVartime lower n,
    uintOr (shiftLeftVartime upper n)
      (if n < L * W then shiftRightVartime lower (L * W - n) else shiftLeftVartime lower (n - L * W)))

/-! ## The limb decompositions (for `n < TB`), the datapath's form of the same functions -/

/-- R132: `limb_shift = n / W`, `bit_shift = n % W`; the mask covers the neighbour's term only (90_conflicts.md C2). -/
def shiftLeftLimbs (a : UInt W L) (n : Nat) : UInt W L :=
  Vector.ofFn fun i =>
    if i.val < n / W then 0
    else if i.val = n / W then wordShl (limbAt a 0) (n % W)
    else
      wordOr (wordShl (limbAt a (i.val - n / W)) (n % W))
        (wordAnd (wordShr (limbAt a (i.val - n / W - 1)) (W - n % W)) (broadcast W (n % W != 0)))

/-- R147: the mirror image, with the same mask. -/
def shiftRightLimbs (a : UInt W L) (n : Nat) : UInt W L :=
  Vector.ofFn fun i =>
    if i.val + n / W + 1 < L then
      wordOr (wordShr (limbAt a (i.val + n / W)) (n % W))
        (wordAnd (wordShl (limbAt a (i.val + n / W + 1)) (W - n % W)) (broadcast W (n % W != 0)))
    else if i.val + n / W + 1 = L then wordShr (limbAt a (L - 1)) (n % W)
    else 0

end Sys2Proof.Machine
end

