-- ==== Sys2Proof/Machine/State.lean ====
section
/-! DEFINITION. The state of the block (10_state.md, whole), the host's moves that are still to come
(60_exceptions.md R207), the stop reasons, and the state after reset. -/

namespace Sys2Proof.Machine

/-- One limb of a `u` register: its word, and whether a command has written it since reset (10_state.md R32; 93 U1
"Track one written bit per limb in the model"). The word of a limb that is not written is never read; it is kept at 0 so
that equal registers are equal data (log 2). -/
structure LimbCell (W : Nat) where
  word : Word W
  written : Bool
deriving DecidableEq, Repr

/-- One big-integer register: exactly `LIMBS` limbs, least significant first (R20, R21, R40). -/
abbrev BigReg (W L : Nat) := Vector (LimbCell W) L

/-- A command as the host issues it: the command word and the data word that accompanies it (R15, R60). -/
structure Command (W : Nat) where
  word : CmdWord
  wdata : Word W
deriving DecidableEq, Repr

/-- The host's moves (R207): issue a command, or reset the block between commands (R210). -/
inductive HostMove (W : Nat) where
  | issue (cmd : Command W)
  | reset
deriving DecidableEq, Repr

/-- The block built with the parameters `c`. `u`, `carry`, `valid`, `err` are the whole architectural state (R29). -/
structure Block (c : Params) where
  /-- `u[0]` to `u[7]` (R20) -/
  u : Vector (BigReg c.W c.LIMBS) 8
  /-- The carry mask (R23) -/
  carry : Word c.W
  /-- The validity indicator (R24) -/
  valid : Choice
  /-- Set by an illegal command, sticky (R25) -/
  err : Bool
  /-- The data word that accompanies the command being executed (R11) -/
  wdata : Word c.W
  /-- The data word the last command returned (R11, R184) -/
  rdata : Word c.W
  /-- The moves the host has still to make, in issue order (R49, R207; log 5) -/
  pending : List (HostMove c.W)
  /-- The model's own counter of free values drawn; no register of the spec (log 4) -/
  draws : Nat
deriving DecidableEq, Repr

/-- A block together with its build parameters, which no step changes (R7; log 1). -/
structure State where
  cfg : Params
  blk : Block cfg
deriving DecidableEq, Repr

/-- No command of the block faults: "AND and shift are total functions over the full value domain, always succeed, and
never trap" (60_exceptions.md R193, R196), and an illegal word has an effect (R190). So there is no constructor, and no
step can end in a fault (log 14). -/
inductive Fault where
deriving DecidableEq, Repr

/-- Why the model would have no meaning for a command. -/
inductive Refusal where
  /-- Raised by `exec` for a command that has no meaning yet; safe. No arm raises it: every command is modelled. -/
  | notModelled (mnemonic : String)
deriving DecidableEq, Repr

/-- A limb that no command has written since reset. -/
def LimbCell.unwritten (W : Nat) : LimbCell W := ⟨0, false⟩

/-- The block of build `c` after reset (10_state.md R31): `carry = 0`, `valid = false`, `err = 0`, every limb unspecified;
idle and ready (R33). The data words, `pending` and `draws` are the model's (log 4, 5, 7). -/
def Block.afterReset (c : Params) : Block c where
  u := Vector.ofFn fun _ => Vector.ofFn fun _ => LimbCell.unwritten c.W
  carry := 0
  valid := false
  err := false
  wdata := 0
  rdata := 0
  pending := []
  draws := 0

/-- The machine of build `c` right after reset. -/
def State.resetOf (c : Params) : State := ⟨c, Block.afterReset c⟩

/-- The machine right after reset, at the instance `Config.build` (log 1). -/
def State.reset : State := State.resetOf Config.build

end Sys2Proof.Machine
end

