-- ==== Sys2Proof/Machine/Flags.lean ====
section
/-! DEFINITION. The flags of 10_state.md: `carry` (R23), `valid` (R24), `err` (R25) and the STATUS view of them (R28). -/

namespace Sys2Proof.Machine

variable {c : Params}

/-- Writes `carry`; SHL1C alone does (R23). -/
def Block.setCarry (b : Block c) (m : Word c.W) : Block c := { b with carry := m }

/-- `valid <- true`, the one value a command writes (R24, R173). -/
def Block.setValid (b : Block c) : Block c := { b with valid := true }

/-- The bit a flag shows in STATUS. -/
def flagBit (x : Bool) : Nat := if x then 1 else 0

/-- STATUS (R28, R183): `zext_W(E * 4 + C * 2 + V)`, `C = 1` iff `carry != 0`. -/
def Block.status (b : Block c) : Word c.W :=
  BitVec.ofNat c.W (flagBit b.err * 4 + flagBit (isNonzero b.carry) * 2 + flagBit b.valid)

end Sys2Proof.Machine
end

