-- ==== Sys2Proof/Machine/Ops.lean ====
section
/-! DEFINITION. The operations the commands are built from: reading and writing registers and limbs, free values,
returning data, the illegal command (60_exceptions.md R190), taking a host move, reset (70_reset_and_hazards.md R210).
An unspecified integer or limb is `none` here: it has no value to read (10_state.md R32). -/

namespace Sys2Proof.Machine

variable {c : Params}

/-! ## Registers and limbs (20_memory.md R42) -/

/-- The cell at `(r, i)`. -/
def Block.cell (b : Block c) (r : RegNum) (i : Fin c.LIMBS) : LimbCell c.W := (b.u[r])[i]

/-- `u[r]` as an integer; `none` if any of its limbs is unspecified (R32). -/
def Block.readReg (b : Block c) (r : RegNum) : Option (UInt c.W c.LIMBS) :=
  if ∀ i, (b.cell r i).written = true then some (Vector.ofFn fun i => (b.cell r i).word) else none

/-- A whole register with every limb written, or with every limb unspecified. -/
def BigReg.ofValue {W L : Nat} (x : Option (UInt W L)) : BigReg W L :=
  match x with
  | some a => Vector.ofFn fun i => ⟨a[i], true⟩
  | none => Vector.ofFn fun _ => LimbCell.unwritten W

/-- `u[r] <- x`, all limbs; an unspecified `x` leaves every limb of `u[r]` unspecified (R32; log 3). -/
def Block.writeReg (b : Block c) (r : RegNum) (x : Option (UInt c.W c.LIMBS)) : Block c :=
  { b with u := b.u.set r.val (BigReg.ofValue x) }

/-- `u[r].limbs[i]`; `none` if it is unspecified. -/
def Block.readLimb (b : Block c) (r : RegNum) (i : Fin c.LIMBS) : Option (Word c.W) :=
  if (b.cell r i).written then some (b.cell r i).word else none

/-- `u[r].limbs[i] <- x`; the other limbs keep their words or stay unspecified (R180). -/
def Block.writeLimb (b : Block c) (r : RegNum) (i : Fin c.LIMBS) (x : Word c.W) : Block c :=
  { b with u := b.u.set r.val ((b.u[r]).set i.val ⟨x, true⟩) }

/-! ## Data words and free values -/

/-- `rdata <- x` (R11). -/
def Block.returns (b : Block c) (x : Word c.W) : Block c := { b with rdata := x }

/-- One free value has been drawn; the next draw is another (log 4). -/
def Block.drawn (b : Block c) : Block c := { b with draws := b.draws + 1 }

/-! ## The shapes of the operation commands. All reads come before any write (R26). -/

/-- `u[rd] <- f(u[rs1], u[rs2]); rdata <- 0`, unspecified if a source is (R32). -/
def Block.binary (f : UInt c.W c.LIMBS → UInt c.W c.LIMBS → UInt c.W c.LIMBS) (rd rs1 rs2 : RegNum) (b : Block c) :
    Block c :=
  (b.writeReg rd ((b.readReg rs1).bind fun x => (b.readReg rs2).map fun y => f x y)).returns 0

/-- `u[rd] <- f(u[rs1]); rdata <- 0`, unspecified if the source is (R32). -/
def Block.unary (f : UInt c.W c.LIMBS → UInt c.W c.LIMBS) (rd rs1 : RegNum) (b : Block c) : Block c :=
  (b.writeReg rd ((b.readReg rs1).map f)).returns 0

/-! ## The illegal command, reset, and the host's moves -/

/-- R190: `err <- 1`, `rdata <- 0`, nothing else. -/
def Block.illegal (b : Block c) : Block c := { b with err := true, rdata := 0 }

/-- A reset between commands (R210): the state of R31. The host's later moves stay its own, and free values already drawn
are not drawn again (log 4, 5). -/
def Block.hostReset (b : Block c) : Block c :=
  { Block.afterReset c with pending := b.pending, draws := b.draws }

/-- The block has accepted `cmd`; `rest` is what the host has still to do. -/
def Block.accept (b : Block c) (cmd : Command c.W) (rest : List (HostMove c.W)) : Block c :=
  { b with wdata := cmd.wdata, pending := rest }

/-- A command completes: every one of its writes is done before the next starts (R46, R49). -/
def complete (s : State) (f : Block s.cfg → Block s.cfg) : Host.Outcome State Fault Refusal := .next ⟨s.cfg, f s.blk⟩

end Sys2Proof.Machine
end

