-- ==== Sys2Proof/Machine/BitAnd.lean ====
section
/-! DEFINITION. Bitwise AND: AND, AND.W, AND.F (41_bitand.md). -/

namespace Sys2Proof.Machine

/-- R111 -/
def execAnd (rd rs1 rs2 : RegNum) (s : State) : Host.Outcome State Fault Refusal :=
  complete s (Block.binary bitand rd rs1 rs2)

/-- R112: the wraparound form, identical to R111. -/
def execAndW (rd rs1 rs2 : RegNum) (s : State) : Host.Outcome State Fault Refusal :=
  complete s (Block.binary bitand rd rs1 rs2)

/-- R113: the flagged form, `valid <- true` always. -/
def execAndF (rd rs1 rs2 : RegNum) (s : State) : Host.Outcome State Fault Refusal :=
  complete s fun b => (b.binary bitand rd rs1 rs2).setValid

end Sys2Proof.Machine
end

