-- ==== Sys2Proof/Machine/ShiftLeft.lean ====
section
/-! DEFINITION. Variable-amount left shift: SHL, SHL.W, SHL.F (43_shift_left.md). -/

namespace Sys2Proof.Machine

/-- R133 -/
def execShl (rd rs1 : RegNum) (n : Imm18) (s : State) : Host.Outcome State Fault Refusal :=
  complete s (Block.unary (fun a => shiftLeftVartime a n.toNat) rd rs1)

/-- R135: the wraparound form, identical to R133. -/
def execShlW (rd rs1 : RegNum) (n : Imm18) (s : State) : Host.Outcome State Fault Refusal :=
  complete s (Block.unary (fun a => shiftLeftVartime a n.toNat) rd rs1)

/-- R136: the flagged form, `valid <- true` also when bits were discarded. -/
def execShlF (rd rs1 : RegNum) (n : Imm18) (s : State) : Host.Outcome State Fault Refusal :=
  complete s fun b => (b.unary (fun a => shiftLeftVartime a n.toNat) rd rs1).setValid

end Sys2Proof.Machine
end

