-- ==== Sys2Proof/Machine/ShiftOne.lean ====
section
/-! DEFINITION. Single-bit left shift with mask-carry: SHL1C (42_shift_one_carry.md). -/

namespace Sys2Proof.Machine

variable {c : Params}

/-- R121. On an unspecified source the result is unspecified and `carry` is a free mask, 0 or all ones (R32). -/
def shiftOneCarry (rd rs1 : RegNum) (b : Block c) : Block c :=
  match b.readReg rs1 with
  | some a =>
    ((b.writeReg rd (some (shiftLeftOneWithCarry a).1)).setCarry (shiftLeftOneWithCarry a).2).returns 0
  | none => ((b.drawn.writeReg rd none).setCarry (broadcast c.W (Config.freeChoice b.draws))).returns 0

def execShl1c (rd rs1 : RegNum) (s : State) : Host.Outcome State Fault Refusal := complete s (shiftOneCarry rd rs1)

end Sys2Proof.Machine
end

