-- ==== Sys2Proof/Machine/ShiftRight.lean ====
section
/-! DEFINITION. Variable-amount right shift: SHR, SHR.W, SHR.F (44_shift_right.md). -/

namespace Sys2Proof.Machine

/-- R148 -/
def execShr (rd rs1 : RegNum) (n : Imm18) (s : State) : Host.Outcome State Fault Refusal :=
  complete s (Block.unary (fun a => shiftRightVartime a n.toNat) rd rs1)

/-- R149: the wraparound form, identical to R148. -/
def execShrW (rd rs1 : RegNum) (n : Imm18) (s : State) : Host.Outcome State Fault Refusal :=
  complete s (Block.unary (fun a => shiftRightVartime a n.toNat) rd rs1)

/-- R150: the flagged form, `valid <- true` always. -/
def execShrF (rd rs1 : RegNum) (n : Imm18) (s : State) : Host.Outcome State Fault Refusal :=
  complete s fun b => (b.unary (fun a => shiftRightVartime a n.toNat) rd rs1).setValid

end Sys2Proof.Machine
end

