-- ==== Sys2Proof/Machine/Transfer.lean ====
section
/-! DEFINITION. Limb transfer and status: LDL, STL, RDC, RDS (47_transfer_status.md). -/

namespace Sys2Proof.Machine

variable {c : Params}

/-- R180: `u[r].limbs[idx] <- wdata`; an index out of range is an illegal command (R45). -/
def loadLimb (r : RegNum) (idx : Imm18) (b : Block c) : Block c :=
  if h : idx.toNat < c.LIMBS then (b.writeLimb r ⟨idx.toNat, h⟩ b.wdata).returns 0 else b.illegal

def execLdl (r : RegNum) (idx : Imm18) (s : State) : Host.Outcome State Fault Refusal := complete s (loadLimb r idx)

/-- R181: `rdata <- u[r].limbs[idx]`; an unspecified limb answers a free value, drawn afresh (93 U1); an index out of
range is an illegal command (R45). -/
def storeLimb (r : RegNum) (idx : Imm18) (b : Block c) : Block c :=
  if h : idx.toNat < c.LIMBS then
    match b.readLimb r ⟨idx.toNat, h⟩ with
    | some x => b.returns x
    | none => b.drawn.returns (Config.freeWord c.W b.draws)
  else b.illegal

def execStl (r : RegNum) (idx : Imm18) (s : State) : Host.Outcome State Fault Refusal := complete s (storeLimb r idx)

/-- R182: `rdata <- carry`. -/
def execRdc (s : State) : Host.Outcome State Fault Refusal := complete s fun b => b.returns b.carry

/-- R183: `rdata <- STATUS`. -/
def execRds (s : State) : Host.Outcome State Fault Refusal := complete s fun b => b.returns b.status

end Sys2Proof.Machine
end

