-- ==== Sys2Proof/Machine/WideShift.lean ====
section
/-! DEFINITION. Wide (double-width) left shift: SHLW (45_wide_shift.md). -/

namespace Sys2Proof.Machine

variable {c : Params}

/-- R162: in place on the pair (`u[rl]` low half, `u[rh]` high half); both halves are computed before either is written.
One register for both halves is an illegal command. An unspecified source makes both results unspecified (R32). -/
def wideShift (rl rh : RegNum) (n : Imm18) (b : Block c) : Block c :=
  if rl = rh then b.illegal
  else
    match b.readReg rl, b.readReg rh with
    | some lower, some upper =>
      ((b.writeReg rl (some (shiftLeftVartimeWide lower upper n.toNat).1)).writeReg rh
        (some (shiftLeftVartimeWide lower upper n.toNat).2)).returns 0
    | _, _ => ((b.writeReg rl none).writeReg rh none).returns 0

def execShlw (rl rh : RegNum) (n : Imm18) (s : State) : Host.Outcome State Fault Refusal := complete s (wideShift rl rh n)

end Sys2Proof.Machine
end

