-- ==== Sys2Proof/Machine/Dispatch.lean ====
section
/-! DEFINITION. One arm for each command. -/

namespace Sys2Proof.Machine

def exec (i : Instr) (s : State) : Host.Outcome State Fault Refusal :=
  match i with
  | .ldl r idx => Sys2Proof.Machine.execLdl r idx s
  | .stl r idx => Sys2Proof.Machine.execStl r idx s
  | .rdc => Sys2Proof.Machine.execRdc s
  | .rds => Sys2Proof.Machine.execRds s
  | .and rd rs1 rs2 => Sys2Proof.Machine.execAnd rd rs1 rs2 s
  | .andW rd rs1 rs2 => Sys2Proof.Machine.execAndW rd rs1 rs2 s
  | .andF rd rs1 rs2 => Sys2Proof.Machine.execAndF rd rs1 rs2 s
  | .shl1c rd rs1 => Sys2Proof.Machine.execShl1c rd rs1 s
  | .shl rd rs1 n => Sys2Proof.Machine.execShl rd rs1 n s
  | .shlW rd rs1 n => Sys2Proof.Machine.execShlW rd rs1 n s
  | .shlF rd rs1 n => Sys2Proof.Machine.execShlF rd rs1 n s
  | .shr rd rs1 n => Sys2Proof.Machine.execShr rd rs1 n s
  | .shrW rd rs1 n => Sys2Proof.Machine.execShrW rd rs1 n s
  | .shrF rd rs1 n => Sys2Proof.Machine.execShrF rd rs1 n s
  | .shlw rl rh n => Sys2Proof.Machine.execShlw rl rh n s

end Sys2Proof.Machine
end

