-- ==== Sys2Proof/Machine/Step.lean ====
section
/-! DEFINITION. One step: the block takes the host's next move (10_state.md R27, 20_memory.md R49, 60_exceptions.md R207). -/

namespace Sys2Proof.Machine

/-- With no move pending the block is idle (R204; log 6). A reset takes effect between commands (R210). A command word is
decoded (R65) and its command executed with its `wdata`, or it is an illegal command (R190). -/
def step (s : State) : Host.Outcome State Fault Refusal :=
  match s.blk.pending with
  | [] => .next s
  | .reset :: rest => .next ⟨s.cfg, Block.hostReset { s.blk with pending := rest }⟩
  | .issue cmd :: rest =>
    match decode s.cfg.LIMBS cmd.word with
    | .ok i => exec i ⟨s.cfg, s.blk.accept cmd rest⟩
    | .error _ => .next ⟨s.cfg, (s.blk.accept cmd rest).illegal⟩

/-- The host's very next move issues the table word `w` of `nbits` bits, accompanied by the data word that is on the port;
its other moves follow (log 8). -/
def State.withFetchWord (s : State) (nbits w : Nat) : State :=
  ⟨s.cfg, { s.blk with
    pending := .issue ⟨BitVec.ofNat 32 (w % 2 ^ nbits), s.blk.wdata⟩ :: s.blk.pending }⟩

end Sys2Proof.Machine
end

