-- ==== Sys2Proof/Machine/Asm.lean ====
section
/-! DEFINITION. Assembler lines and pseudo-instructions (30_encoding.md R79, R80) as the moves a host makes of them. The
text of a line is `AsmLine.text`; reading text is the host's software (log 13). -/

namespace Sys2Proof.Machine

/-- A line of R79, a command with the data word that travels with it, or a pseudo-instruction of R80. -/
inductive AsmLine (W : Nat) where
  /-- `LDL ur, #idx, data` -/
  | ldl (r : RegNum) (idx : Imm18) (data : Word W)
  /-- any other command; the assembler sends `wdata = 0` -/
  | command (i : Instr)
  /-- `MOV urd, urs` -/
  | mov (rd rs : RegNum)
  /-- `ANDEQ urd, urs` -/
  | andEq (rd rs : RegNum)
  /-- `ANDEQ.W urd, urs` -/
  | andEqW (rd rs : RegNum)
  /-- `SHLEQ urd, #n` -/
  | shlEq (rd : RegNum) (n : Imm18)
  /-- `SHLEQ.W urd, #n` -/
  | shlEqW (rd : RegNum) (n : Imm18)
  /-- `SHREQ urd, #n` -/
  | shrEq (rd : RegNum) (n : Imm18)
  /-- `SHREQ.W urd, #n` -/
  | shrEqW (rd : RegNum) (n : Imm18)
  /-- `CLR urd` -/
  | clr (rd : RegNum)
  /-- `LDU urd, v` -/
  | ldu (rd : RegNum) (v : Nat)
deriving DecidableEq, Repr

/-- The move that issues `i` with `wdata = data`. -/
def issueOf {W : Nat} (i : Instr) (data : Word W) : HostMove W := .issue ⟨encode i, data⟩

/-- R80's expansion of LDU: `LDL urd, #i, (v >> (i*W)) mod 2^W` for `i = 0 .. LIMBS-1`, ascending. -/
def lduMoves (c : Params) (rd : RegNum) (v : Nat) : List (HostMove c.W) :=
  (List.range c.LIMBS).map fun k => issueOf (.ldl rd (BitVec.ofNat 18 k)) (BitVec.ofNat c.W (v / 2 ^ (k * c.W)))

/-- The moves of a line (R79, R80). -/
def AsmLine.moves (c : Params) : AsmLine c.W → List (HostMove c.W)
  | .ldl r idx data => [issueOf (.ldl r idx) data]
  | .command i => [issueOf i 0]
  | .mov rd rs => [issueOf (.and rd rs rs) 0]
  | .andEq rd rs => [issueOf (.and rd rd rs) 0]
  | .andEqW rd rs => [issueOf (.andW rd rd rs) 0]
  | .shlEq rd n => [issueOf (.shl rd rd n) 0]
  | .shlEqW rd n => [issueOf (.shlW rd rd n) 0]
  | .shrEq rd n => [issueOf (.shr rd rd n) 0]
  | .shrEqW rd n => [issueOf (.shrW rd rd n) 0]
  | .clr rd => [issueOf (.shl rd rd 262143) 0]
  | .ldu rd v => lduMoves c rd v

def regText (r : RegNum) : String := "u" ++ toString r.val
def immText (n : Imm18) : String := "#" ++ toString n.toNat

/-- A command as R79 writes it; LDL's data word follows its index in `AsmLine.text`. -/
def instrText : Instr → String
  | .ldl r idx => "LDL " ++ regText r ++ ", " ++ immText idx
  | .stl r idx => "STL " ++ regText r ++ ", " ++ immText idx
  | .rdc => "RDC"
  | .rds => "RDS"
  | .and rd rs1 rs2 => "AND " ++ regText rd ++ ", " ++ regText rs1 ++ ", " ++ regText rs2
  | .andW rd rs1 rs2 => "AND.W " ++ regText rd ++ ", " ++ regText rs1 ++ ", " ++ regText rs2
  | .andF rd rs1 rs2 => "AND.F " ++ regText rd ++ ", " ++ regText rs1 ++ ", " ++ regText rs2
  | .shl1c rd rs1 => "SHL1C " ++ regText rd ++ ", " ++ regText rs1
  | .shl rd rs1 n => "SHL " ++ regText rd ++ ", " ++ regText rs1 ++ ", " ++ immText n
  | .shlW rd rs1 n => "SHL.W " ++ regText rd ++ ", " ++ regText rs1 ++ ", " ++ immText n
  | .shlF rd rs1 n => "SHL.F " ++ regText rd ++ ", " ++ regText rs1 ++ ", " ++ immText n
  | .shr rd rs1 n => "SHR " ++ regText rd ++ ", " ++ regText rs1 ++ ", " ++ immText n
  | .shrW rd rs1 n => "SHR.W " ++ regText rd ++ ", " ++ regText rs1 ++ ", " ++ immText n
  | .shrF rd rs1 n => "SHR.F " ++ regText rd ++ ", " ++ regText rs1 ++ ", " ++ immText n
  | .shlw rl rh n => "SHLW " ++ regText rl ++ ", " ++ regText rh ++ ", " ++ immText n

/-- A line as R79 and R80 write it. -/
def AsmLine.text {W : Nat} : AsmLine W → String
  | .ldl r idx data => instrText (.ldl r idx) ++ ", " ++ toString data.toNat
  | .command i => instrText i
  | .mov rd rs => "MOV " ++ regText rd ++ ", " ++ regText rs
  | .andEq rd rs => "ANDEQ " ++ regText rd ++ ", " ++ regText rs
  | .andEqW rd rs => "ANDEQ.W " ++ regText rd ++ ", " ++ regText rs
  | .shlEq rd n => "SHLEQ " ++ regText rd ++ ", " ++ immText n
  | .shlEqW rd n => "SHLEQ.W " ++ regText rd ++ ", " ++ immText n
  | .shrEq rd n => "SHREQ " ++ regText rd ++ ", " ++ immText n
  | .shrEqW rd n => "SHREQ.W " ++ regText rd ++ ", " ++ immText n
  | .clr rd => "CLR " ++ regText rd
  | .ldu rd v => "LDU " ++ regText rd ++ ", " ++ toString v

end Sys2Proof.Machine
end

