-- ==== Sys2Proof/Safety.lean ====
section
/-! DEFINITION. The terms in which claims about runs are made: the invariant of the block, what a command reads and
writes of the register file, what of a run is public (70_reset_and_hazards.md R218), and a safe run (60_exceptions.md
R197, 70_reset_and_hazards.md R212). -/

namespace Sys2Proof.Machine

variable {c : Params}

/-- The invariant every step keeps: `carry` is 0 or all ones (10_state.md R23), and an unwritten limb keeps the word 0, so
that equal blocks are equal data (log 2). -/
def Block.Inv (b : Block c) : Prop :=
  (b.carry = 0 ∨ b.carry = BitVec.allOnes c.W) ∧
    ∀ r i, (b.cell r i).written = false → b.cell r i = LimbCell.unwritten c.W

def State.Inv (s : State) : Prop := s.blk.Inv

/-- Outside the registers `ds`, and outside `carry`, `valid`, `rdata` and the model's counter `draws`, everything is as
before. -/
def Block.KeepsBut (b b' : Block c) (ds : List RegNum) : Prop :=
  (∀ q, q ∉ ds → b'.u[q] = b.u[q]) ∧ b'.err = b.err ∧ b'.wdata = b.wdata ∧ b'.pending = b.pending

/-- `carry` and `valid` are as before. -/
def Block.KeepsFlags (b b' : Block c) : Prop := b'.carry = b.carry ∧ b'.valid = b.valid

/-- No limb of `u[r]` has a value to read (10_state.md R32). -/
def Block.Unspecified (b : Block c) (r : RegNum) : Prop := ∀ i, b.readLimb r i = none

/-- What the block shows after an illegal command (60_exceptions.md R190): `err` set, `rdata = 0`, nothing else. -/
def Block.OnlyErr (b b' : Block c) : Prop :=
  b'.err = true ∧ b'.rdata = 0 ∧ b'.u = b.u ∧ b.KeepsFlags b' ∧ b'.wdata = b.wdata ∧ b'.pending = b.pending ∧
    b'.draws = b.draws

/-! ## What a command reads and writes of the register file (10_state.md R30, 20_memory.md R42) -/

/-- The address of a limb (R42). -/
structure CellRef where
  reg : RegNum
  limb : Nat
deriving DecidableEq, Repr

/-- All limbs of a register of `L` limbs. -/
def regCells (L : Nat) (r : RegNum) : List CellRef := (List.range L).map fun k => ⟨r, k⟩

/-- The limbs a command reads; an illegal command reads none. -/
def cellsRead (L : Nat) : Instr → List CellRef
  | .ldl _ _ => []
  | .stl r idx => if idx.toNat < L then [⟨r, idx.toNat⟩] else []
  | .rdc => []
  | .rds => []
  | .and _ rs1 rs2 => regCells L rs1 ++ regCells L rs2
  | .andW _ rs1 rs2 => regCells L rs1 ++ regCells L rs2
  | .andF _ rs1 rs2 => regCells L rs1 ++ regCells L rs2
  | .shl1c _ rs1 => regCells L rs1
  | .shl _ rs1 _ => regCells L rs1
  | .shlW _ rs1 _ => regCells L rs1
  | .shlF _ rs1 _ => regCells L rs1
  | .shr _ rs1 _ => regCells L rs1
  | .shrW _ rs1 _ => regCells L rs1
  | .shrF _ rs1 _ => regCells L rs1
  | .shlw rl rh _ => if rl = rh then [] else regCells L rl ++ regCells L rh

/-- The limbs a command writes; an illegal command writes none. -/
def cellsWritten (L : Nat) : Instr → List CellRef
  | .ldl r idx => if idx.toNat < L then [⟨r, idx.toNat⟩] else []
  | .stl _ _ => []
  | .rdc => []
  | .rds => []
  | .and rd _ _ => regCells L rd
  | .andW rd _ _ => regCells L rd
  | .andF rd _ _ => regCells L rd
  | .shl1c rd _ => regCells L rd
  | .shl rd _ _ => regCells L rd
  | .shlW rd _ _ => regCells L rd
  | .shlF rd _ _ => regCells L rd
  | .shr rd _ _ => regCells L rd
  | .shrW rd _ _ => regCells L rd
  | .shrF rd _ _ => regCells L rd
  | .shlw rl rh _ => if rl = rh then [] else regCells L rl ++ regCells L rh

/-- The flagged forms (46_result_conventions.md R173). -/
def isFlagged : Instr → Bool
  | .andF _ _ _ => true
  | .shlF _ _ _ => true
  | .shrF _ _ _ => true
  | .ldl _ _ => false
  | .stl _ _ => false
  | .rdc => false
  | .rds => false
  | .and _ _ _ => false
  | .andW _ _ _ => false
  | .shl1c _ _ => false
  | .shl _ _ _ => false
  | .shlW _ _ _ => false
  | .shr _ _ _ => false
  | .shrW _ _ _ => false
  | .shlw _ _ _ => false

/-! ## What of a run is public (R218; log 9, log 15, log 16) -/

/-- What can be observed of one move beside data values: the cycles it takes, the limbs it reads and writes, and `err`
after it. -/
structure Observation where
  cycles : Nat
  read : List CellRef
  written : List CellRef
  err : Bool
deriving DecidableEq, Repr

/-- The observation of the step from `s` to `t`. DESIGN CHOICE, log 16: the spec does not say which register-file
locations a reset touches (70_reset_and_hazards.md R210, R218; 92_eei_decisions.md D16), nor what it takes of time; a reset
and an idle step are observed as 0 cycles and as reading and writing no limb. -/
def observe (s t : State) : Observation :=
  match s.blk.pending with
  | .issue cmd :: _ =>
    match decode s.cfg.LIMBS cmd.word with
    | .ok i =>
      ⟨Config.latency cmd.word s.cfg.W s.cfg.LIMBS, cellsRead s.cfg.LIMBS i, cellsWritten s.cfg.LIMBS i, t.blk.err⟩
    | .error _ => ⟨Config.latency cmd.word s.cfg.W s.cfg.LIMBS, [], [], t.blk.err⟩
  | .reset :: _ => ⟨0, [], [], t.blk.err⟩
  | [] => ⟨0, [], [], t.blk.err⟩

/-- The observations of the first `k` steps from `s`. -/
def trace : Nat → State → List Observation
  | 0, _ => []
  | k + 1, s =>
    match step s with
    | .next t => observe s t :: trace k t
    | .fault _ => []
    | .refused _ => []

/-- The public part of a move: the command word, not the data word (00_scope.md R13, 30_encoding.md R67). -/
def HostMove.publicPart {W : Nat} : HostMove W → Option CmdWord
  | .issue cmd => some cmd.word
  | .reset => none

/-- Two blocks of one build that agree on `err` and on the public part of the host's moves; the registers, `carry`,
`valid`, the data words and the free values may differ (R218). -/
def Block.SamePublic (a b : Block c) : Prop :=
  a.err = b.err ∧ a.pending.map HostMove.publicPart = b.pending.map HostMove.publicPart

/-! ## Safe runs -/

/-- Every limb a command reads has been written (R212). -/
def Block.SourcesWritten (b : Block c) (i : Instr) : Prop :=
  ∀ r k, (⟨r, k.val⟩ : CellRef) ∈ cellsRead c.LIMBS i → (b.cell r k).written = true

/-- `k` steps from `s` issue no illegal command, since `err` is 0 after them (R197). -/
def SafeRun (k : Nat) (s : State) : Prop := ∃ t : State, Host.Core.run core k s = .next t ∧ t.blk.err = false

end Sys2Proof.Machine
end

