-- ==== Sys2Proof/Certificates/Slice0/Obligations.lean ====
section
/-! DEFINITION. The statements for the provers. They hold for every build `c` (00_scope.md R7) and every block of it, in
states that no run reaches too; where an invariant is needed it is `Block.Inv`. No statement rests on a free value or on
the value of `draws`. -/

open Sys2Proof Sys2Proof.Machine

/-! ## Encoding (30_encoding.md) -/

/-- R68: `w = (op << 26) | (cv << 24) | (ra << 21) | (rb << 18) | low`, for every command, with R68's worked examples. -/
def Obligations.EncodeFollowsFieldFormula : Prop :=
  (∀ r idx, (encode (.ldl r idx)).toNat = 1 * 2 ^ 26 + r.val * 2 ^ 21 + idx.toNat) ∧
  (∀ r idx, (encode (.stl r idx)).toNat = 2 * 2 ^ 26 + r.val * 2 ^ 21 + idx.toNat) ∧
  (encode .rdc).toNat = 3 * 2 ^ 26 ∧ (encode .rds).toNat = 4 * 2 ^ 26 ∧
  (∀ rd rs1 rs2 : RegNum, ∀ p ∈ [(Instr.and rd rs1 rs2, 0), (.andW rd rs1 rs2, 1), (.andF rd rs1 rs2, 2)],
    (encode p.1).toNat = 8 * 2 ^ 26 + p.2 * 2 ^ 24 + rd.val * 2 ^ 21 + rs1.val * 2 ^ 18 + rs2.val * 2 ^ 15) ∧
  (∀ rd rs1 : RegNum, (encode (.shl1c rd rs1)).toNat = 9 * 2 ^ 26 + rd.val * 2 ^ 21 + rs1.val * 2 ^ 18) ∧
  (∀ (rd rs1 : RegNum) (n : Imm18),
    ∀ p ∈ [(Instr.shl rd rs1 n, 10, 0), (.shlW rd rs1 n, 10, 1), (.shlF rd rs1 n, 10, 2),
        (.shr rd rs1 n, 11, 0), (.shrW rd rs1 n, 11, 1), (.shrF rd rs1 n, 11, 2), (.shlw rd rs1 n, 12, 0)],
      (encode p.1).toNat = p.2.1 * 2 ^ 26 + p.2.2 * 2 ^ 24 + rd.val * 2 ^ 21 + rs1.val * 2 ^ 18 + n.toNat) ∧
  (∀ p ∈ ([(.and 3 1 2, 0x20650000), (.andW 3 1 2, 0x21650000), (.andF 3 1 2, 0x22650000), (.and 7 7 7, 0x20FF8000),
      (.shl1c 4 3, 0x248C0000), (.shl 5 4 65, 0x28B00041), (.shlW 5 4 65, 0x29B00041), (.shlF 5 4 65, 0x2AB00041),
      (.shl 7 7 262143, 0x28FFFFFF), (.shr 6 5 88, 0x2CD40058), (.shrW 6 5 88, 0x2DD40058), (.shrF 6 5 88, 0x2ED40058),
      (.shlw 0 1 128, 0x30040080), (.ldl 2 3, 0x04400003), (.stl 2 3, 0x08400003), (.rdc, 0x0C000000),
      (.rds, 0x10000000)] : List (Instr × CmdWord)), encode p.1 = p.2)

/-- Words written out in 30_encoding.md R68 and 95_test_vectors.md 2.6 decode to the command they stand for. -/
def Obligations.SpecWordsDecodeAsWritten : Prop :=
  ∀ p ∈ ([(0x04400001, .ldl 2 1), (0x08400001, .stl 2 1), (0x0C000000, .rdc), (0x10000000, .rds),
      (0x20650000, .and 3 1 2), (0x21650000, .andW 3 1 2), (0x22650000, .andF 3 1 2), (0x20FF8000, .and 7 7 7),
      (0x248C0000, .shl1c 4 3), (0x28B00041, .shl 5 4 65), (0x29B00041, .shlW 5 4 65), (0x2AB00041, .shlF 5 4 65),
      (0x28FFFFFF, .shl 7 7 262143), (0x2CD40058, .shr 6 5 88), (0x2DD40058, .shrW 6 5 88),
      (0x2ED40058, .shrF 6 5 88), (0x30040080, .shlw 0 1 128)] : List (CmdWord × Instr)), decode 2 p.1 = .ok p.2

/-- Decoding the word of a well-formed command gives the command back, every operand at every value. -/
def Obligations.DecodeOfEncode : Prop := ∀ (L : Nat) (i : Instr), i.wf L = true → decode L (encode i) = .ok i

/-- A word that decodes to a command is that command's word, and the command is well formed: no word has two meanings and
no bit of a legal word is dropped. -/
def Obligations.EncodeOfDecode : Prop :=
  ∀ (L : Nat) (w : CmdWord) (i : Instr), decode L w = .ok i → encode i = w ∧ i.wf L = true

/-- R64: "Rows are mutually exclusive". -/
def Obligations.RowsAreMutuallyExclusive : Prop :=
  rows.Pairwise fun r r' => ∀ w : CmdWord, ¬ (w &&& r.mask = r.pattern ∧ w &&& r'.mask = r'.pattern)

/-- R66, the exhaustive list (a) to (f): a word on it sets `err`, returns 0 and changes nothing else; every other word is
one of the fifteen commands, and is executed. -/
def Obligations.IllegalWordsAreExactlyTheListed : Prop :=
  ∀ (c : Params) (b : Block c) (w : CmdWord) (d : Word c.W) (rest : List (HostMove c.W)),
    b.pending = .issue ⟨w, d⟩ :: rest →
    let op := w.toNat / 2 ^ 26
    let cv := w.toNat / 2 ^ 24 % 4
    let listed :=
      op ∉ [1, 2, 3, 4, 8, 9, 10, 11, 12] ∨
      cv = 3 ∨
      (cv ≠ 0 ∧ op ∈ [1, 2, 3, 4, 9, 12]) ∨
      (op = 8 ∧ w.toNat % 2 ^ 15 ≠ 0) ∨ (op = 9 ∧ w.toNat % 2 ^ 18 ≠ 0) ∨
        (op ∈ [1, 2] ∧ w.toNat / 2 ^ 18 % 8 ≠ 0) ∨ (op ∈ [3, 4] ∧ w.toNat % 2 ^ 24 ≠ 0) ∨
      (op ∈ [1, 2] ∧ c.LIMBS ≤ w.toNat % 2 ^ 18) ∨
      (op = 12 ∧ w.toNat / 2 ^ 21 % 8 = w.toNat / 2 ^ 18 % 8)
    (listed → ∃ b' : Block c, step ⟨c, b⟩ = .next ⟨c, b'⟩ ∧ b'.err = true ∧ b'.rdata = 0 ∧ b'.u = b.u ∧
        b.KeepsFlags b' ∧ b'.pending = rest) ∧
      (¬ listed → ∃ i : Instr, decode c.LIMBS w = .ok i ∧
        step ⟨c, b⟩ = exec i ⟨c, { b with wdata := d, pending := rest }⟩)

/-! ## Steps, reset, runs -/

/-- When the host's next move issues a word that decodes to a command, the step is that command executed with the data
word that came with it, the move taken. -/
def Obligations.StepRunsTheDecodedCommand : Prop :=
  ∀ (c : Params) (b : Block c) (cmd : Command c.W) (rest : List (HostMove c.W)) (i : Instr),
    b.pending = .issue cmd :: rest → decode c.LIMBS cmd.word = .ok i →
      step ⟨c, b⟩ = exec i ⟨c, { b with wdata := cmd.wdata, pending := rest }⟩

/-- R31: after reset `carry = 0`, `valid = false`, `err = 0`, and every limb of every register is unspecified. -/
def Obligations.ResetLeavesFlagsClearAndLimbsUnspecified : Prop :=
  ∀ c : Params, (State.resetOf c).blk.carry = 0 ∧ (State.resetOf c).blk.valid = false ∧
    (State.resetOf c).blk.err = false ∧ ∀ r, (State.resetOf c).blk.Unspecified r

/-- R210: a reset between commands leaves the state of R31, at the same build, and the host's later moves to come; and a
step that clears `err` is a reset. (That a reset returns `rdata = 0` is no part of this.) -/
def Obligations.HostResetIsTheOnlyWayToClearErr : Prop :=
  (∀ (c : Params) (b : Block c) (rest : List (HostMove c.W)), b.pending = .reset :: rest →
    ∃ b' : Block c, step ⟨c, b⟩ = .next ⟨c, b'⟩ ∧ b'.carry = 0 ∧ b'.valid = false ∧ b'.err = false ∧
      (∀ r, b'.Unspecified r) ∧ b'.pending = rest) ∧
  (∀ (s t : State), step s = .next t → s.blk.err = true → t.blk.err = false →
    ∃ rest, s.blk.pending = .reset :: rest)

/-- With no move of the host pending the block is idle and a step changes nothing. This is the model's choice, log 6. -/
def Obligations.IdleStepChangesNothing : Prop :=
  ∀ (c : Params) (b : Block c), b.pending = [] → step ⟨c, b⟩ = .next ⟨c, b⟩

/-- R193: no content of a register, a flag or a data word makes a command fail: every step ends in a next state of the same
build, and a command sets `err` exactly when its operands break R64's constraint. -/
def Obligations.NoCommandFailsBecauseOfData : Prop :=
  (∀ s : State, ∃ t : State, step s = .next t ∧ t.cfg = s.cfg) ∧
  (∀ (c : Params) (b : Block c) (i : Instr), ∃ b' : Block c, exec i ⟨c, b⟩ = .next ⟨c, b'⟩ ∧
    b'.err = (b.err || !i.wf c.LIMBS))

/-- The invariant (`carry` is 0 or all ones, R23; an unwritten limb keeps the word 0, log 2) holds after reset. -/
def Obligations.ResetMeetsTheInvariant : Prop := ∀ c : Params, (State.resetOf c).Inv

/-- Every step keeps the invariant. That an unwritten limb keeps the word 0 is the model's choice, log 2. -/
def Obligations.StepKeepsTheInvariant : Prop := ∀ s t : State, s.Inv → step s = .next t → t.Inv

/-- R23, R134, R217: no command but SHL1C writes `carry`. -/
def Obligations.OnlyShl1cWritesCarry : Prop :=
  ∀ (c : Params) (b b' : Block c) (i : Instr), exec i ⟨c, b⟩ = .next ⟨c, b'⟩ → (∀ rd rs1, i ≠ .shl1c rd rs1) →
    b'.carry = b.carry

/-- R24, R173, R175: the flagged forms write `valid <- true`; every other command leaves `valid` as it was. -/
def Obligations.OnlyFlaggedFormsWriteValid : Prop :=
  ∀ (c : Params) (b b' : Block c) (i : Instr), exec i ⟨c, b⟩ = .next ⟨c, b'⟩ →
    b'.valid = (b.valid || match i with
      | .andF _ _ _ | .shlF _ _ _ | .shrF _ _ _ => true
      | _ => false)

/-- R24, R25, R197, over runs: after the host's next commands, `err` is set exactly if it was or one of their words is
illegal, and `valid` exactly if it was or one of them is a flagged form. -/
def Obligations.RunFlagsTellWhatWasIssued : Prop :=
  ∀ (c : Params) (b : Block c) (cmds : List (Command c.W)) (rest : List (HostMove c.W)),
    b.pending = cmds.map HostMove.issue ++ rest →
    ∃ b' : Block c, Host.Core.run core cmds.length (State.mk c b) = .next (State.mk c b') ∧ b'.pending = rest ∧
      (b'.err = true ↔ b.err = true ∨ ∃ cmd ∈ cmds, ∃ e, decode c.LIMBS cmd.word = .error e) ∧
      (b'.valid = true ↔ b.valid = true ∨ ∃ cmd ∈ cmds, ∃ i, decode c.LIMBS cmd.word = .ok i ∧ isFlagged i = true)

/-! ## Commands: result and frame -/

/-- R110, R111, R112, R113: AND, AND.W, AND.F of specified sources, also where the destination is a source (R26). -/
def Obligations.AndFormsComputeBitwiseAnd : Prop :=
  ∀ (c : Params) (b : Block c) (rd rs1 rs2 : RegNum) (x y : UInt c.W c.LIMBS),
    b.readReg rs1 = some x → b.readReg rs2 = some y →
    ∀ p ∈ [(Instr.and rd rs1 rs2, b.valid), (.andW rd rs1 rs2, b.valid), (.andF rd rs1 rs2, true)],
      ∃ (b' : Block c) (z : UInt c.W c.LIMBS), exec p.1 ⟨c, b⟩ = .next ⟨c, b'⟩ ∧ b'.readReg rd = some z ∧
        (∀ i : Fin c.LIMBS, z[i] = x[i] &&& y[i]) ∧
        (∀ j, (val z).testBit j = ((val x).testBit j && (val y).testBit j)) ∧
        b'.valid = p.2 ∧ b'.carry = b.carry ∧ b'.rdata = 0 ∧ b.KeepsBut b' [rd]

/-- R171: "the state after `X.W` equals the state after `X`", X in AND, SHL, SHR; it writes no flag. -/
def Obligations.WraparoundFormsEqualPlainForms : Prop :=
  ∀ (c : Params) (b : Block c) (rd rs1 rs2 : RegNum) (n : Imm18),
    ∀ p ∈ [(Instr.andW rd rs1 rs2, Instr.and rd rs1 rs2), (.shlW rd rs1 n, .shl rd rs1 n),
        (.shrW rd rs1 n, .shr rd rs1 n)],
      exec p.1 ⟨c, b⟩ = exec p.2 ⟨c, b⟩ ∧
        ∃ b' : Block c, exec p.1 ⟨c, b⟩ = .next ⟨c, b'⟩ ∧ b.KeepsFlags b' ∧ b'.err = b.err

/-- R120, R121: SHL1C of a specified source, limb by limb; `carry` is all ones exactly if the top bit of the top limb was
one. -/
def Obligations.Shl1cShiftsLimbsAndMasksTheCarry : Prop :=
  ∀ (c : Params) (b : Block c) (rd rs1 : RegNum) (x : UInt c.W c.LIMBS), b.readReg rs1 = some x →
    ∃ (b' : Block c) (z : UInt c.W c.LIMBS), exec (.shl1c rd rs1) ⟨c, b⟩ = .next ⟨c, b'⟩ ∧ b'.readReg rd = some z ∧
      (∀ i : Fin c.LIMBS, (z[i]).toNat = 2 * (x[i]).toNat % 2 ^ c.W +
        if i.val = 0 then 0 else (limbAt x (i.val - 1)).toNat / 2 ^ (c.W - 1)) ∧
      b'.carry = (if 2 ^ (c.W - 1) ≤ (limbAt x (c.LIMBS - 1)).toNat then BitVec.allOnes c.W else 0) ∧
      b'.valid = b.valid ∧ b'.rdata = 0 ∧ b.KeepsBut b' [rd]

/-- R122, the value equation of the single-bit shift, and "`shift_left_one_with_carry` applied once equals
`shift_left_vartime(a, 1)`". -/
def Obligations.SingleBitShiftValueEquation : Prop :=
  ∀ (W L : Nat) (a : UInt W L), 1 ≤ W → 1 ≤ L →
    (carryBit a (L - 1)).toNat = ((val a).testBit (L * W - 1)).toNat ∧
    2 * val a = val (shiftLeftOneWithCarry a).1 + (carryBit a (L - 1)).toNat * 2 ^ (L * W) ∧
    val (shiftLeftOneWithCarry a).1 = 2 * val a % 2 ^ (L * W) ∧
    (shiftLeftOneWithCarry a).2 = (if 2 ^ (L * W - 1) ≤ val a then BitVec.allOnes W else 0) ∧
    (shiftLeftOneWithCarry a).1 = shiftLeftVartime a 1

/-- R130, R133, R134, R135, R136: SHL, SHL.W, SHL.F of a specified source by every encodable amount. -/
def Obligations.ShlFormsMultiplyByPowerOfTwo : Prop :=
  ∀ (c : Params) (b : Block c) (rd rs1 : RegNum) (n : Imm18) (x : UInt c.W c.LIMBS), b.readReg rs1 = some x →
    ∀ p ∈ [(Instr.shl rd rs1 n, b.valid), (.shlW rd rs1 n, b.valid), (.shlF rd rs1 n, true)],
      ∃ (b' : Block c) (z : UInt c.W c.LIMBS), exec p.1 ⟨c, b⟩ = .next ⟨c, b'⟩ ∧ b'.readReg rd = some z ∧
        val z = val x * 2 ^ n.toNat % 2 ^ c.TB ∧
        b'.valid = p.2 ∧ b'.carry = b.carry ∧ b'.rdata = 0 ∧ b.KeepsBut b' [rd]

/-- R145, R148, R149, R150: SHR, SHR.W, SHR.F of a specified source by every encodable amount. -/
def Obligations.ShrFormsDivideByPowerOfTwo : Prop :=
  ∀ (c : Params) (b : Block c) (rd rs1 : RegNum) (n : Imm18) (x : UInt c.W c.LIMBS), b.readReg rs1 = some x →
    ∀ p ∈ [(Instr.shr rd rs1 n, b.valid), (.shrW rd rs1 n, b.valid), (.shrF rd rs1 n, true)],
      ∃ (b' : Block c) (z : UInt c.W c.LIMBS), exec p.1 ⟨c, b⟩ = .next ⟨c, b'⟩ ∧ b'.readReg rd = some z ∧
        val z = val x / 2 ^ n.toNat ∧
        b'.valid = p.2 ∧ b'.carry = b.carry ∧ b'.rdata = 0 ∧ b.KeepsBut b' [rd]

/-- R162: SHLW on two different specified registers writes both halves, from the values before the command; on one
register it is an illegal command. -/
def Obligations.ShlwShiftsThePairInPlace : Prop :=
  ∀ (c : Params) (b : Block c) (rl rh : RegNum) (n : Imm18),
    (∀ x y : UInt c.W c.LIMBS, rl ≠ rh → b.readReg rl = some x → b.readReg rh = some y →
      ∃ (b' : Block c) (lo hi : UInt c.W c.LIMBS), exec (.shlw rl rh n) ⟨c, b⟩ = .next ⟨c, b'⟩ ∧
        b'.readReg rl = some lo ∧ b'.readReg rh = some hi ∧
        val lo + val hi * 2 ^ c.TB = (val x + val y * 2 ^ c.TB) * 2 ^ n.toNat % 2 ^ (2 * c.TB) ∧
        b.KeepsFlags b' ∧ b'.rdata = 0 ∧ b.KeepsBut b' [rl, rh]) ∧
    (rl = rh → ∃ b' : Block c, exec (.shlw rl rh n) ⟨c, b⟩ = .next ⟨c, b'⟩ ∧ b.OnlyErr b')

/-- R180, R45: LDL writes one limb, whatever the data word; an index out of range is an illegal command. -/
def Obligations.LdlWritesOneLimb : Prop :=
  ∀ (c : Params) (b : Block c) (r : RegNum) (idx : Imm18),
    (∀ h : idx.toNat < c.LIMBS, ∃ b' : Block c, exec (.ldl r idx) ⟨c, b⟩ = .next ⟨c, b'⟩ ∧
      b'.readLimb r ⟨idx.toNat, h⟩ = some b.wdata ∧
      (∀ j : Fin c.LIMBS, j.val ≠ idx.toNat → b'.cell r j = b.cell r j) ∧
      b.KeepsFlags b' ∧ b'.rdata = 0 ∧ b.KeepsBut b' [r]) ∧
    (c.LIMBS ≤ idx.toNat → ∃ b' : Block c, exec (.ldl r idx) ⟨c, b⟩ = .next ⟨c, b'⟩ ∧ b.OnlyErr b')

/-- R181, R45: STL returns a specified limb and changes no state; on an unspecified limb it returns some word and changes
no state of the block either; an index out of range is an illegal command. -/
def Obligations.StlReturnsOneLimb : Prop :=
  ∀ (c : Params) (b : Block c) (r : RegNum) (idx : Imm18),
    (∀ (h : idx.toNat < c.LIMBS) (x : Word c.W), b.readLimb r ⟨idx.toNat, h⟩ = some x →
      exec (.stl r idx) ⟨c, b⟩ = .next ⟨c, { b with rdata := x }⟩) ∧
    (∀ h : idx.toNat < c.LIMBS, b.readLimb r ⟨idx.toNat, h⟩ = none →
      ∃ b' : Block c, exec (.stl r idx) ⟨c, b⟩ = .next ⟨c, b'⟩ ∧ b.KeepsFlags b' ∧ b.KeepsBut b' []) ∧
    (c.LIMBS ≤ idx.toNat → ∃ b' : Block c, exec (.stl r idx) ⟨c, b⟩ = .next ⟨c, b'⟩ ∧ b.OnlyErr b')

/-- R182, R183, R28: RDC returns `carry`, RDS returns the STATUS word `E * 4 + C * 2 + V` with every higher bit zero; neither
changes any state. -/
def Obligations.RdcAndRdsReadTheFlags : Prop :=
  ∀ (c : Params) (b : Block c),
    exec .rdc ⟨c, b⟩ = .next ⟨c, { b with rdata := b.carry }⟩ ∧
    ∃ x : Word c.W, exec .rds ⟨c, b⟩ = .next ⟨c, { b with rdata := x }⟩ ∧
      x.toNat = b.err.toNat * 4 + (decide (b.carry ≠ 0)).toNat * 2 + b.valid.toNat ∧
      ∀ j, 3 ≤ j → x.getLsbD j = false

/-- R184: a command whose pseudocode assigns no `rdata`, and every illegal command, returns 0; `wdata` is read by LDL only.
(Of timing the model says nothing here.) -/
def Obligations.DataWordDefaults : Prop :=
  (∀ (c : Params) (b b' : Block c) (i : Instr), exec i ⟨c, b⟩ = .next ⟨c, b'⟩ →
    (∀ r idx, i ≠ .stl r idx) → i ≠ .rdc → i ≠ .rds → b'.rdata = 0) ∧
  (∀ (c : Params) (b b' : Block c) (i : Instr), exec i ⟨c, b⟩ = .next ⟨c, b'⟩ → i.wf c.LIMBS = false →
    b'.rdata = 0) ∧
  (∀ (c : Params) (b b' : Block c) (i : Instr) (d : Word c.W), exec i ⟨c, b⟩ = .next ⟨c, b'⟩ →
    (∀ r idx, i ≠ .ldl r idx) → exec i ⟨c, { b with wdata := d }⟩ = .next ⟨c, { b' with wdata := d }⟩)

/-- R32: an operation command that reads a register with an unspecified limb leaves every limb of its destinations
unspecified; `.F` forms still set `valid`, SHL1C leaves `carry` 0 or all ones, and nothing else changes. -/
def Obligations.UnspecifiedSourceSpreadsToDestination : Prop :=
  ∀ (c : Params) (b : Block c) (rd rs1 rs2 : RegNum) (n : Imm18),
    (b.readReg rs1 = none ∨ b.readReg rs2 = none →
      ∀ p ∈ [(Instr.and rd rs1 rs2, b.valid), (.andW rd rs1 rs2, b.valid), (.andF rd rs1 rs2, true)],
        ∃ b' : Block c, exec p.1 ⟨c, b⟩ = .next ⟨c, b'⟩ ∧ b'.Unspecified rd ∧ b'.valid = p.2 ∧ b'.carry = b.carry ∧
          b'.rdata = 0 ∧ b.KeepsBut b' [rd]) ∧
    (b.readReg rs1 = none →
      (∀ p ∈ [(Instr.shl rd rs1 n, b.valid), (.shlW rd rs1 n, b.valid), (.shlF rd rs1 n, true),
          (.shr rd rs1 n, b.valid), (.shrW rd rs1 n, b.valid), (.shrF rd rs1 n, true)],
        ∃ b' : Block c, exec p.1 ⟨c, b⟩ = .next ⟨c, b'⟩ ∧ b'.Unspecified rd ∧ b'.valid = p.2 ∧ b'.carry = b.carry ∧
          b'.rdata = 0 ∧ b.KeepsBut b' [rd]) ∧
      ∃ b' : Block c, exec (.shl1c rd rs1) ⟨c, b⟩ = .next ⟨c, b'⟩ ∧ b'.Unspecified rd ∧ b'.valid = b.valid ∧
        (b'.carry = 0 ∨ b'.carry = BitVec.allOnes c.W) ∧ b'.rdata = 0 ∧ b.KeepsBut b' [rd]) ∧
    (b.readReg rs1 = none ∨ b.readReg rs2 = none → rs1 ≠ rs2 →
      ∃ b' : Block c, exec (.shlw rs1 rs2 n) ⟨c, b⟩ = .next ⟨c, b'⟩ ∧ b'.Unspecified rs1 ∧ b'.Unspecified rs2 ∧
        b.KeepsFlags b' ∧ b'.rdata = 0 ∧ b.KeepsBut b' [rs1, rs2])

/-- R212: a well-formed command whose sources are written needs no free value, and every limb it writes is specified after
it. -/
def Obligations.WrittenSourcesGiveSpecifiedResults : Prop :=
  ∀ (c : Params) (b : Block c) (i : Instr), i.wf c.LIMBS = true → b.SourcesWritten i →
    ∃ b' : Block c, exec i ⟨c, b⟩ = .next ⟨c, b'⟩ ∧ b'.draws = b.draws ∧
      ∀ (r : RegNum) (k : Fin c.LIMBS), (⟨r, k.val⟩ : CellRef) ∈ cellsWritten c.LIMBS i → (b'.cell r k).written = true

/-- R46: the same LDL issued twice leaves the state of issuing it once; repeating STL of a specified limb, RDC or RDS
returns the same data and changes nothing. -/
def Obligations.RepeatingTransfersChangesNothing : Prop :=
  ∀ (c : Params) (b b' : Block c) (r : RegNum) (idx : Imm18),
    (exec (.ldl r idx) ⟨c, b⟩ = .next ⟨c, b'⟩ → exec (.ldl r idx) ⟨c, b'⟩ = .next ⟨c, b'⟩) ∧
    (∀ h : idx.toNat < c.LIMBS, b.readLimb r ⟨idx.toNat, h⟩ ≠ none → exec (.stl r idx) ⟨c, b⟩ = .next ⟨c, b'⟩ →
      exec (.stl r idx) ⟨c, b'⟩ = .next ⟨c, b'⟩) ∧
    (∀ i ∈ [Instr.rdc, Instr.rds], exec i ⟨c, b⟩ = .next ⟨c, b'⟩ → exec i ⟨c, b'⟩ = .next ⟨c, b'⟩)

/-! ## Pseudo-instructions (30_encoding.md R80) -/

/-- R80, LDU: issuing its expansion loads the whole literal, whatever the register held, and touches nothing else. -/
def Obligations.LduLoadsAWholeInteger : Prop :=
  ∀ (c : Params) (b : Block c) (rd : RegNum) (v : Nat) (rest : List (HostMove c.W)), v < 2 ^ c.TB →
    b.pending = (AsmLine.ldu rd v).moves c ++ rest →
    ∃ (b' : Block c) (z : UInt c.W c.LIMBS),
      Host.Core.run core c.LIMBS (State.mk c b) = .next (State.mk c b') ∧ b'.readReg rd = some z ∧ val z = v ∧
        (∀ q, q ≠ rd → b'.u[q] = b.u[q]) ∧ b.KeepsFlags b' ∧ b'.err = b.err ∧ b'.pending = rest

/-- R80: the one-command pseudo-instructions on specified registers: MOV copies, CLR writes ZERO, the assignment forms
replace the register by the result. -/
def Obligations.PseudoInstructionsHaveTheirEffect : Prop :=
  ∀ (c : Params) (b : Block c) (rd rs : RegNum) (n : Imm18) (rest : List (HostMove c.W)) (x y : UInt c.W c.LIMBS),
    b.readReg rd = some x → b.readReg rs = some y →
    ∀ p ∈ [(AsmLine.mov rd rs, val y), (.andEq rd rs, val x &&& val y), (.andEqW rd rs, val x &&& val y),
        (.shlEq rd n, val x * 2 ^ n.toNat % 2 ^ c.TB), (.shlEqW rd n, val x * 2 ^ n.toNat % 2 ^ c.TB),
        (.shrEq rd n, val x / 2 ^ n.toNat), (.shrEqW rd n, val x / 2 ^ n.toNat), (.clr rd, 0)],
      b.pending = p.1.moves c ++ rest →
      ∃ (b' : Block c) (z : UInt c.W c.LIMBS), step ⟨c, b⟩ = .next ⟨c, b'⟩ ∧ b'.readReg rd = some z ∧ val z = p.2 ∧
        (∀ q, q ≠ rd → b'.u[q] = b.u[q]) ∧ b.KeepsFlags b' ∧ b'.err = b.err ∧ b'.pending = rest

/-! ## Timing safety (70_reset_and_hazards.md R218) -/

/-- R218: two runs that issue the same command words from blocks that agree on `err`, and differ arbitrarily in registers,
`carry`, `valid` and data words, show the same cycles, the same limbs read and written, and the same `err`, at every
point. The limbs are those of `cellsRead` and `cellsWritten`, the model's reading of R30 (log 15); that a reset touches
none is the model's choice (log 16). -/
def Obligations.PublicTraceIsIndependentOfSecrets : Prop :=
  ∀ (c : Params) (a b : Block c) (k : Nat), a.SamePublic b → trace k ⟨c, a⟩ = trace k ⟨c, b⟩

/-- The limbs a command writes are among those `cellsWritten` declares for it: every other cell is as before. -/
def Obligations.CommandsWriteOnlyDeclaredLimbs : Prop :=
  ∀ (c : Params) (b b' : Block c) (i : Instr) (r : RegNum) (k : Fin c.LIMBS), exec i ⟨c, b⟩ = .next ⟨c, b'⟩ →
    (⟨r, k.val⟩ : CellRef) ∉ cellsWritten c.LIMBS i → b'.cell r k = b.cell r k

/-- A command reads no limb beside those `cellsRead` declares for it: where two blocks agree on these, on the flags, on the
data word and on the free values to come, they agree on every limb it writes, on the flags and on what it returns. -/
def Obligations.CommandsReadOnlyDeclaredLimbs : Prop :=
  ∀ (c : Params) (a b a' b' : Block c) (i : Instr),
    (∀ (r : RegNum) (k : Fin c.LIMBS), (⟨r, k.val⟩ : CellRef) ∈ cellsRead c.LIMBS i → a.cell r k = b.cell r k) →
    a.carry = b.carry → a.valid = b.valid → a.err = b.err → a.wdata = b.wdata → a.draws = b.draws →
    exec i ⟨c, a⟩ = .next ⟨c, a'⟩ → exec i ⟨c, b⟩ = .next ⟨c, b'⟩ →
    (∀ (r : RegNum) (k : Fin c.LIMBS), (⟨r, k.val⟩ : CellRef) ∈ cellsWritten c.LIMBS i → a'.cell r k = b'.cell r k) ∧
      a'.carry = b'.carry ∧ a'.valid = b'.valid ∧ a'.err = b'.err ∧ a'.rdata = b'.rdata

/-! ## The functions of the spec -/

/-- R10, R21: `val` is the sum of the limbs by weight, a bijection onto `[0, 2^TB - 1]`, with the values of ZERO, ONE and
MAX. -/
def Obligations.ValIsABijection : Prop :=
  ∀ W L : Nat, 1 ≤ W → 1 ≤ L →
    (∀ a : UInt W L, val a = ∑ i : Fin L, (a[i]).toNat * 2 ^ (i.val * W)) ∧
    (∀ a : UInt W L, val a ≤ 2 ^ (L * W) - 1) ∧
    (∀ v, v < 2 ^ (L * W) → ∃! a : UInt W L, val a = v) ∧
    (∀ v, v < 2 ^ (L * W) → ∀ i : Fin L, ((fromVal W L v)[i]).toNat = v / 2 ^ (i.val * W) % 2 ^ W) ∧
    val (zeroUInt W L) = 0 ∧ val (oneUInt W L) = 1 ∧ val (maxUInt W L) = 2 ^ (L * W) - 1

/-- R114: the properties of AND; the flagged form always reports `valid = true`; equality is equality of values. -/
def Obligations.BitandProperties : Prop :=
  (∀ (W L : Nat) (a b : UInt W L), bitand a b = bitand b a ∧ bitand a a = a ∧
    bitand a (zeroUInt W L) = zeroUInt W L ∧ bitand a (maxUInt W L) = a ∧ (a = b ↔ val a = val b)) ∧
  (∀ (s : State) (rd rs1 rs2 : RegNum), ∃ t : State, exec (.andF rd rs1 rs2) s = .next t ∧ t.blk.valid = true)

/-- R91 to R95, R97, R98: the word primitives where they are defined, and R93's mask form of `select`. -/
def Obligations.WordPrimitivesAreAsDefined : Prop :=
  ∀ (W : Nat) (a b : Word W) (x : Choice), 1 ≤ W →
    2 * a.toNat = (topBit a).toNat * 2 ^ W + (shiftLeftOne a).toNat ∧ (topBit a).toNat ≤ 1 ∧
    select a b x = wordOr (wordAnd a (BitVec.allOnes W - broadcast W x)) (wordAnd b (broadcast W x)) ∧
    (isNonzero a = true ↔ a.toNat ≠ 0) ∧
    wordAnd a (broadcast W true) = a ∧ wordAnd a (broadcast W false) = 0 ∧
    (∀ k, k < W → (wordShl a k).toNat = a.toNat * 2 ^ k % 2 ^ W ∧ (wordShr a k).toNat = a.toNat / 2 ^ k) ∧
    wordShl a 0 = a ∧ wordShr a 0 = a ∧ wordShr a (W - 1) = topBit a ∧ (1 < W → wordShl a 1 = shiftLeftOne a)

/-- R100: at every place the spec ORs two words or two integers they have no set bit in common, for the reasons R100
gives, and the OR is their sum. -/
def Obligations.OrIsSumWhereverUsed : Prop :=
  (∀ (W : Nat) (x y : Word W), 1 ≤ W → (shiftLeftOne x).getLsbD 0 = false ∧ (topBit y).toNat ≤ 1 ∧
    wordAnd (shiftLeftOne x) (topBit y) = 0 ∧
    (wordOr (shiftLeftOne x) (topBit y)).toNat = (shiftLeftOne x).toNat + (topBit y).toNat) ∧
  (∀ (W : Nat) (x y : Word W) (bs : Nat), bs < W →
    let lo := wordAnd (wordShr y (W - bs)) (broadcast W (bs != 0))
    let hi := wordAnd (wordShl y (W - bs)) (broadcast W (bs != 0))
    (∀ j, j < bs → (wordShl x bs).getLsbD j = false) ∧ lo.toNat < 2 ^ bs ∧
    (wordShr x bs).toNat < 2 ^ (W - bs) ∧ (∀ j, j < W - bs → hi.getLsbD j = false) ∧
    wordAnd (wordShl x bs) lo = 0 ∧ (wordOr (wordShl x bs) lo).toNat = (wordShl x bs).toNat + lo.toNat ∧
    wordAnd (wordShr x bs) hi = 0 ∧ (wordOr (wordShr x bs) hi).toNat = (wordShr x bs).toNat + hi.toNat) ∧
  (∀ (W L : Nat) (lower upper : UInt W L) (n : Nat),
    let fold := if n < L * W then shiftRightVartime lower (L * W - n) else shiftLeftVartime lower (n - L * W)
    bitand (shiftLeftVartime upper n) fold = zeroUInt W L ∧
      val (uintOr (shiftLeftVartime upper n) fold) = val (shiftLeftVartime upper n) + val fold)

/-- R138: the properties of the left shift. -/
def Obligations.LeftShiftLaws : Prop :=
  ∀ (W L : Nat) (a b : UInt W L), 1 ≤ W → 1 ≤ L →
    shiftLeftVartime a 0 = a ∧ (∀ n, L * W ≤ n → shiftLeftVartime a n = zeroUInt W L) ∧
    (shiftLeftOneWithCarry a).1 = shiftLeftVartime a 1 ∧
    (∀ m n, shiftLeftVartime (shiftLeftVartime a m) n = shiftLeftVartime a (m + n)) ∧
    (∀ n, shiftLeftVartime (zeroUInt W L) n = zeroUInt W L) ∧
    (∀ n, shiftLeftVartime (bitand a b) n = bitand (shiftLeftVartime a n) (shiftLeftVartime b n))

/-- R152: the properties of the right shift. -/
def Obligations.RightShiftLaws : Prop :=
  ∀ (W L : Nat) (a b : UInt W L),
    shiftRightVartime a 0 = a ∧ (∀ n, L * W ≤ n → shiftRightVartime a n = zeroUInt W L) ∧
    (∀ m n, shiftRightVartime (shiftRightVartime a m) n = shiftRightVartime a (m + n)) ∧
    (∀ n, n ≤ L * W → (shiftRightVartime (shiftLeftVartime a n) n = a ↔ val a / 2 ^ (L * W - n) = 0)) ∧
    (∀ n, val (shiftLeftVartime (shiftRightVartime a n) n) = val a - val a % 2 ^ n) ∧
    (∀ n, shiftRightVartime (bitand a b) n = bitand (shiftRightVartime a n) (shiftRightVartime b n)) ∧
    (∀ n, n ≤ L * W → val a = val (shiftRightVartime a n) * 2 ^ n + val a % 2 ^ n)

/-- R139: the saturation rule R131 and the limb decomposition R132, with its mask, compute the contract R130; and so does
the function the machine executes. -/
def Obligations.LeftShiftLimbsComputeTheContract : Prop :=
  ∀ (W L : Nat) (a : UInt W L) (n : Nat), 1 ≤ W →
    (n < L * W → val (shiftLeftLimbs a n) = val a * 2 ^ n % 2 ^ (L * W)) ∧
    (L * W ≤ n → val (zeroUInt W L) = val a * 2 ^ n % 2 ^ (L * W)) ∧
    shiftLeftVartime a n = (if n < L * W then shiftLeftLimbs a n else zeroUInt W L)

/-- R146, R147: the mirrored limb decomposition computes the contract R145; and so does the function the machine
executes. -/
def Obligations.RightShiftLimbsComputeTheContract : Prop :=
  ∀ (W L : Nat) (a : UInt W L) (n : Nat), 1 ≤ W →
    (n < L * W → val (shiftRightLimbs a n) = val a / 2 ^ n) ∧
    (L * W ≤ n → val (zeroUInt W L) = val a / 2 ^ n) ∧
    shiftRightVartime a n = (if n < L * W then shiftRightLimbs a n else zeroUInt W L)

/-- R161, the wide shift round trip, for every natural `n`. -/
def Obligations.WideShiftRoundTrip : Prop :=
  ∀ (W L : Nat) (lower upper : UInt W L) (n : Nat),
    let D := (val lower + val upper * 2 ^ (L * W)) * 2 ^ n % 2 ^ (2 * (L * W))
    val (shiftLeftVartimeWide lower upper n).1 = D % 2 ^ (L * W) ∧
      val (shiftLeftVartimeWide lower upper n).2 = D / 2 ^ (L * W)

/-- R163: saturation of the wide shift, `n = TB` exactly, and the document's two scenarios. -/
def Obligations.WideShiftSaturation : Prop :=
  (∀ (W L : Nat) (lower upper : UInt W L) (n : Nat),
    (L * W ≤ n → (shiftLeftVartimeWide lower upper n).1 = zeroUInt W L) ∧
    (2 * (L * W) ≤ n → shiftLeftVartimeWide lower upper n = (zeroUInt W L, zeroUInt W L)) ∧
    shiftLeftVartimeWide lower upper (L * W) = (zeroUInt W L, lower)) ∧
  shiftLeftVartimeWide (maxUInt 64 2) (maxUInt 64 2) 256 = (zeroUInt 64 2, zeroUInt 64 2) ∧
  shiftLeftVartimeWide (oneUInt 64 2) (oneUInt 64 2) 128 = (zeroUInt 64 2, oneUInt 64 2)
end

