-- ==== Sys2Proof/Laws/Encoding.lean ====
section
/-! SUPPORT. The fields of a command word and its layout (30_encoding.md R61) determine each other, bit by bit. -/

namespace Sys2Proof

theorem layout_getLsbD (op : BitVec 6) (cv : BitVec 2) (ra rb : RegNum) (low : Imm18) (i : Nat) :
    (layout op cv ra rb low).getLsbD i =
      if i < 18 then low.getLsbD i
      else if i < 21 then (BitVec.ofFin rb : BitVec 3).getLsbD (i - 18)
      else if i < 24 then (BitVec.ofFin ra : BitVec 3).getLsbD (i - 21)
      else if i < 26 then cv.getLsbD (i - 24)
      else op.getLsbD (i - 26) := by
  simp only [layout, BitVec.getLsbD_append, Nat.sub_sub]
  grind

@[simp] theorem fieldOp_layout (op : BitVec 6) (cv : BitVec 2) (ra rb : RegNum) (low : Imm18) :
    fieldOp (layout op cv ra rb low) = op := by
  apply BitVec.eq_of_getLsbD_eq
  intro i hi
  simp only [fieldOp, BitVec.getLsbD_extractLsb', layout_getLsbD]
  grind

@[simp] theorem fieldCv_layout (op : BitVec 6) (cv : BitVec 2) (ra rb : RegNum) (low : Imm18) :
    fieldCv (layout op cv ra rb low) = cv := by
  apply BitVec.eq_of_getLsbD_eq
  intro i hi
  simp only [fieldCv, BitVec.getLsbD_extractLsb', layout_getLsbD]
  grind

@[simp] theorem fieldRa_layout (op : BitVec 6) (cv : BitVec 2) (ra rb : RegNum) (low : Imm18) :
    fieldRa (layout op cv ra rb low) = ra := by
  have h : (layout op cv ra rb low).extractLsb' 21 3 = BitVec.ofFin ra := by
    apply BitVec.eq_of_getLsbD_eq
    intro i hi
    simp only [BitVec.getLsbD_extractLsb', layout_getLsbD]
    grind
  simp [fieldRa, h]

@[simp] theorem fieldRb_layout (op : BitVec 6) (cv : BitVec 2) (ra rb : RegNum) (low : Imm18) :
    fieldRb (layout op cv ra rb low) = rb := by
  have h : (layout op cv ra rb low).extractLsb' 18 3 = BitVec.ofFin rb := by
    apply BitVec.eq_of_getLsbD_eq
    intro i hi
    simp only [BitVec.getLsbD_extractLsb', layout_getLsbD]
    grind
  simp [fieldRb, h]

@[simp] theorem fieldImm18_layout (op : BitVec 6) (cv : BitVec 2) (ra rb : RegNum) (low : Imm18) :
    fieldImm18 (layout op cv ra rb low) = low := by
  apply BitVec.eq_of_getLsbD_eq
  intro i hi
  simp only [fieldImm18, BitVec.getLsbD_extractLsb', layout_getLsbD]
  grind

@[simp] theorem fieldRc_layout (op : BitVec 6) (cv : BitVec 2) (ra rb rc : RegNum) :
    fieldRc (layout op cv ra rb (lowRRR rc)) = rc := by
  have h : (layout op cv ra rb (lowRRR rc)).extractLsb' 15 3 = BitVec.ofFin rc := by
    apply BitVec.eq_of_getLsbD_eq
    intro i hi
    simp only [BitVec.getLsbD_extractLsb', layout_getLsbD, lowRRR, BitVec.getLsbD_append]
    grind
  simp [fieldRc, h]

/-- A word is the layout of its own fields. -/
theorem layout_fields (w : CmdWord) :
    layout (fieldOp w) (fieldCv w) (fieldRa w) (fieldRb w) (fieldImm18 w) = w := by
  have ha : (BitVec.ofFin (fieldRa w) : BitVec 3) = w.extractLsb' 21 3 := rfl
  have hb : (BitVec.ofFin (fieldRb w) : BitVec 3) = w.extractLsb' 18 3 := rfl
  apply BitVec.eq_of_getLsbD_eq
  intro i hi
  rw [layout_getLsbD, ha, hb]
  simp only [fieldOp, fieldCv, fieldImm18, BitVec.getLsbD_extractLsb']
  grind

/-- Every word is a layout: the way to case on a word's fields. -/
theorem exists_layout (w : CmdWord) : ∃ op cv ra rb low, w = layout op cv ra rb low :=
  ⟨_, _, _, _, _, (layout_fields w).symm⟩

theorem lowRRR_getLsbD (rc : RegNum) (i : Nat) :
    (lowRRR rc).getLsbD i = if i < 15 then false else (BitVec.ofFin rc : BitVec 3).getLsbD (i - 15) := by
  simp only [lowRRR, BitVec.getLsbD_append]
  grind

/-- The mask test of R64 on the layout of a word, field by field, for any mask and pattern that are layouts too. -/
theorem layout_and (op op' : BitVec 6) (cv cv' : BitVec 2) (ra ra' rb rb' : BitVec 3) (low low' : Imm18) :
    layout op cv ra.toFin rb.toFin low &&& layout op' cv' ra'.toFin rb'.toFin low' =
      layout (op &&& op') (cv &&& cv') (ra &&& ra').toFin (rb &&& rb').toFin (low &&& low') := by
  apply BitVec.eq_of_getLsbD_eq
  intro i hi
  simp only [BitVec.getLsbD_and, layout_getLsbD, BitVec.ofFin_toFin]
  grind

/-- Two layouts are equal exactly when their fields are. -/
theorem layout_inj {op op' : BitVec 6} {cv cv' : BitVec 2} {ra ra' rb rb' : RegNum} {low low' : Imm18} :
    layout op cv ra rb low = layout op' cv' ra' rb' low' ↔
      op = op' ∧ cv = cv' ∧ ra = ra' ∧ rb = rb' ∧ low = low' := by
  constructor
  · intro h
    exact ⟨by simpa using congrArg fieldOp h, by simpa using congrArg fieldCv h, by simpa using congrArg fieldRa h,
      by simpa using congrArg fieldRb h, by simpa using congrArg fieldImm18 h⟩
  · rintro ⟨rfl, rfl, rfl, rfl, rfl⟩
    rfl

/-- The mask test of R64 read field by field. -/
theorem and_layout_eq (w : CmdWord) (op op' : BitVec 6) (cv cv' : BitVec 2) (ra rb ra' rb' : BitVec 3)
    (low low' : Imm18) :
    (w &&& layout op cv ra.toFin rb.toFin low == layout op' cv' ra'.toFin rb'.toFin low') =
      decide (fieldOp w &&& op = op' ∧ fieldCv w &&& cv = cv' ∧ (BitVec.ofFin (fieldRa w) : BitVec 3) &&& ra = ra' ∧
        (BitVec.ofFin (fieldRb w) : BitVec 3) &&& rb = rb' ∧ fieldImm18 w &&& low = low') := by
  rw [Bool.eq_iff_iff, beq_iff_eq, decide_eq_true_eq]
  conv_lhs => rw [← layout_fields w]
  have h := layout_and (fieldOp w) op (fieldCv w) cv (BitVec.ofFin (fieldRa w)) ra (BitVec.ofFin (fieldRb w)) rb
    (fieldImm18 w) low
  simp only [] at h
  rw [h, layout_inj, BitVec.toFin_inj, BitVec.toFin_inj]

theorem ones6 : ∀ x : BitVec 6, x &&& 63#6 = x := by decide
theorem ones2 : ∀ x : BitVec 2, x &&& 3#2 = x := by decide
theorem ones3 : ∀ x : BitVec 3, x &&& 7#3 = x := by decide
theorem ones18 (x : BitVec 18) : x &&& 0x3FFFF#18 = x := (BitVec.and_allOnes : x &&& BitVec.allOnes 18 = x)
theorem ofFin_zero : ∀ x : RegNum, ((BitVec.ofFin x : BitVec 3) = 0) ↔ x = 0 := by decide

theorem selects_RRI (w : CmdWord) (op : BitVec 6) (cv : BitVec 2) :
    (w &&& 0xFF000000 == layout op cv 0 0 0) = decide (fieldOp w = op ∧ fieldCv w = cv) := by
  refine (and_layout_eq w 63 op 3 cv 0 0 0 0 0 0).trans ?_
  simp [ones6, ones2]

theorem selects_RI (w : CmdWord) (op : BitVec 6) (cv : BitVec 2) :
    (w &&& 0xFF1C0000 == layout op cv 0 0 0) = decide (fieldOp w = op ∧ fieldCv w = cv ∧ fieldRb w = 0) := by
  refine (and_layout_eq w 63 op 3 cv 0 7 0 0 0 0).trans ?_
  simp [ones6, ones2, ones3, ← ofFin_zero]

theorem selects_RRR (w : CmdWord) (op : BitVec 6) (cv : BitVec 2) :
    (w &&& 0xFF007FFF == layout op cv 0 0 0) =
      decide (fieldOp w = op ∧ fieldCv w = cv ∧ fieldImm18 w &&& 0x7FFF#18 = 0) := by
  refine (and_layout_eq w 63 op 3 cv 0 0 0 0 0x7FFF 0).trans ?_
  simp [ones6, ones2]

theorem selects_RR (w : CmdWord) (op : BitVec 6) (cv : BitVec 2) :
    (w &&& 0xFF03FFFF == layout op cv 0 0 0) = decide (fieldOp w = op ∧ fieldCv w = cv ∧ fieldImm18 w = 0) := by
  refine (and_layout_eq w 63 op 3 cv 0 0 0 0 0x3FFFF 0).trans ?_
  simp [ones6, ones2, ones18]

theorem selects_Z (w : CmdWord) (op : BitVec 6) (cv : BitVec 2) :
    (w &&& 0xFFFFFFFF == layout op cv 0 0 0) =
      decide (fieldOp w = op ∧ fieldCv w = cv ∧ fieldRa w = 0 ∧ fieldRb w = 0 ∧ fieldImm18 w = 0) := by
  refine (and_layout_eq w 63 op 3 cv 7 7 0 0 0x3FFFF 0).trans ?_
  simp [ones6, ones2, ones3, ones18, ← ofFin_zero]

/-- Bits 14:0 of the low field are zero exactly when it is a third register field. -/
theorem low_mbz (low : Imm18) : low &&& 0x7FFF#18 = 0 ↔ ∃ rc, low = lowRRR rc := by
  constructor
  · intro h
    refine ⟨(low.extractLsb' 15 3).toFin, ?_⟩
    apply BitVec.eq_of_getLsbD_eq
    intro i hi
    have hb := congrArg (·.getLsbD i) h
    have hm : (0x7FFF#18).getLsbD i = decide (i < 15) := by
      clear hb h
      revert i
      decide
    simp only [BitVec.getLsbD_and, hm] at hb
    rw [lowRRR_getLsbD]
    simp only [BitVec.ofFin_toFin, BitVec.getLsbD_extractLsb']
    grind
  · rintro ⟨rc, rfl⟩
    revert rc; decide

/-- A layout as R68 writes it, as a number. -/
theorem layout_toNat (op : BitVec 6) (cv : BitVec 2) (ra rb : RegNum) (low : Imm18) :
    (layout op cv ra rb low).toNat =
      op.toNat * 2 ^ 26 + cv.toNat * 2 ^ 24 + ra.val * 2 ^ 21 + rb.val * 2 ^ 18 + low.toNat := by
  have h2 := cv.isLt
  have h3 := ra.isLt
  have h4 := rb.isLt
  have h5 := low.isLt
  simp only [layout, BitVec.toNat_append, BitVec.toNat_ofFin]
  rw [← Nat.shiftLeft_add_eq_or_of_lt h5, ← Nat.shiftLeft_add_eq_or_of_lt (by simp),
    ← Nat.shiftLeft_add_eq_or_of_lt (by simp), ← Nat.shiftLeft_add_eq_or_of_lt h2]
  simp only [Nat.shiftLeft_eq]
  omega

theorem lowRRR_toNat (rc : RegNum) : (lowRRR rc).toNat = rc.val * 2 ^ 15 := by revert rc; decide

theorem find_cons {α : Type} (p : α → Bool) (a : α) (as : List α) :
    (a :: as).find? p = if p a = true then some a else as.find? p := by
  rw [List.find?_cons]
  cases p a <;> rfl

@[simp] theorem lowRRR_mbz (rc : RegNum) : lowRRR rc &&& 32767#18 = 0#18 := (low_mbz _).2 ⟨rc, rfl⟩

/-- R65 (1) by the fields: the row a word selects. -/
theorem rowOf_fields (w : CmdWord) : rowOf w =
    (if fieldOp w = 1 ∧ fieldCv w = 0 ∧ fieldRb w = 0 then rows[0]? else
    (if fieldOp w = 2 ∧ fieldCv w = 0 ∧ fieldRb w = 0 then rows[1]? else
    (if fieldOp w = 3 ∧ fieldCv w = 0 ∧ fieldRa w = 0 ∧ fieldRb w = 0 ∧ fieldImm18 w = 0 then rows[2]? else
    (if fieldOp w = 4 ∧ fieldCv w = 0 ∧ fieldRa w = 0 ∧ fieldRb w = 0 ∧ fieldImm18 w = 0 then rows[3]? else
    (if fieldOp w = 8 ∧ fieldCv w = 0 ∧ fieldImm18 w &&& 0x7FFF#18 = 0 then rows[4]? else
    (if fieldOp w = 8 ∧ fieldCv w = 1 ∧ fieldImm18 w &&& 0x7FFF#18 = 0 then rows[5]? else
    (if fieldOp w = 8 ∧ fieldCv w = 2 ∧ fieldImm18 w &&& 0x7FFF#18 = 0 then rows[6]? else
    (if fieldOp w = 9 ∧ fieldCv w = 0 ∧ fieldImm18 w = 0 then rows[7]? else
    (if fieldOp w = 10 ∧ fieldCv w = 0 then rows[8]? else
    (if fieldOp w = 10 ∧ fieldCv w = 1 then rows[9]? else
    (if fieldOp w = 10 ∧ fieldCv w = 2 then rows[10]? else
    (if fieldOp w = 11 ∧ fieldCv w = 0 then rows[11]? else
    (if fieldOp w = 11 ∧ fieldCv w = 1 then rows[12]? else
    (if fieldOp w = 11 ∧ fieldCv w = 2 then rows[13]? else
    (if fieldOp w = 12 ∧ fieldCv w = 0 then rows[14]? else
    none))))))))))))))) := by
  simp only [rowOf, rows, find_cons, List.find?_nil,
    show (w &&& 0xFF1C0000 == 0x04000000) = _ from selects_RI w 1 0,
    show (w &&& 0xFF1C0000 == 0x08000000) = _ from selects_RI w 2 0,
    show (w &&& 0xFFFFFFFF == 0x0C000000) = _ from selects_Z w 3 0,
    show (w &&& 0xFFFFFFFF == 0x10000000) = _ from selects_Z w 4 0,
    show (w &&& 0xFF007FFF == 0x20000000) = _ from selects_RRR w 8 0,
    show (w &&& 0xFF007FFF == 0x21000000) = _ from selects_RRR w 8 1,
    show (w &&& 0xFF007FFF == 0x22000000) = _ from selects_RRR w 8 2,
    show (w &&& 0xFF03FFFF == 0x24000000) = _ from selects_RR w 9 0,
    show (w &&& 0xFF000000 == 0x28000000) = _ from selects_RRI w 10 0,
    show (w &&& 0xFF000000 == 0x29000000) = _ from selects_RRI w 10 1,
    show (w &&& 0xFF000000 == 0x2A000000) = _ from selects_RRI w 10 2,
    show (w &&& 0xFF000000 == 0x2C000000) = _ from selects_RRI w 11 0,
    show (w &&& 0xFF000000 == 0x2D000000) = _ from selects_RRI w 11 1,
    show (w &&& 0xFF000000 == 0x2E000000) = _ from selects_RRI w 11 2,
    show (w &&& 0xFF000000 == 0x30000000) = _ from selects_RRI w 12 0, decide_eq_true_eq]
  rfl

end Sys2Proof
end

