-- ==== Sys2Proof/Laws/Operands.lean ====
section
/-! SUPPORT. The value of a fixed-width integer and its limbs (00_scope.md R10, 10_state.md R21). -/

namespace Sys2Proof.Machine

variable {W L : Nat}

theorem valLimbs_lt (l : List (Word W)) : valLimbs l < 2 ^ (l.length * W) := by
  induction l with
  | nil => simp [valLimbs]
  | cons x xs ih =>
    have hx := x.isLt
    have : 2 ^ ((x :: xs).length * W) = 2 ^ W * 2 ^ (xs.length * W) := by
      rw [← pow_add]; congr 1; simp; ring
    rw [valLimbs, this]
    nlinarith [Nat.two_pow_pos W]

theorem val_lt (a : UInt W L) : val a < 2 ^ (L * W) := by
  simpa [val] using valLimbs_lt a.toList

theorem valLimbs_limb (l : List (Word W)) (i : Nat) (h : i < l.length) :
    (l[i]).toNat = valLimbs l / 2 ^ (i * W) % 2 ^ W := by
  induction l generalizing i with
  | nil => simp at h
  | cons x xs ih =>
    cases i with
    | zero => simp [valLimbs, Nat.add_mul_mod_self_left, Nat.mod_eq_of_lt x.isLt]
    | succ i =>
      have h' : i < xs.length := by simpa using h
      have e : 2 ^ ((i + 1) * W) = 2 ^ W * 2 ^ (i * W) := by rw [← pow_add]; congr 1; ring
      rw [List.getElem_cons_succ, ih i h', valLimbs, e, ← Nat.div_div_eq_div_mul]
      congr 2
      rw [Nat.add_mul_div_left _ _ (Nat.two_pow_pos W), Nat.div_eq_of_lt x.isLt, Nat.zero_add]

/-- The limbs of an integer are the digits of its value. -/
theorem toNat_limb (a : UInt W L) (i : Nat) (h : i < L) : (a[i]).toNat = val a / 2 ^ (i * W) % 2 ^ W := by
  have := valLimbs_limb a.toList i (by simpa using h)
  simpa [val] using this

@[simp] theorem getElem_fromVal (v i : Nat) (h : i < L) :
    (fromVal W L v)[i] = BitVec.ofNat W (v / 2 ^ (i * W)) := by simp [fromVal]

/-- Integers with one value are equal. -/
theorem val_injective {a b : UInt W L} (h : val a = val b) : a = b := by
  apply Vector.ext
  intro i hi
  apply BitVec.eq_of_toNat_eq
  rw [toNat_limb a i hi, toNat_limb b i hi, h]

theorem valLimbs_digits (v : Nat) (n : Nat) :
    valLimbs ((List.range n).map fun i => BitVec.ofNat W (v / 2 ^ (i * W))) = v % 2 ^ (n * W) := by
  induction n generalizing v with
  | zero => simp [valLimbs, Nat.mod_one]
  | succ n ih =>
    have e : 2 ^ ((n + 1) * W) = 2 ^ W * 2 ^ (n * W) := by rw [← pow_add]; congr 1; ring
    have s : ∀ i, v / 2 ^ ((i + 1) * W) = v / 2 ^ W / 2 ^ (i * W) := by
      intro i
      rw [Nat.div_div_eq_div_mul, ← pow_add]; congr 2; ring
    have t : ((List.range n).map Nat.succ).map (fun i => BitVec.ofNat W (v / 2 ^ (i * W))) =
        (List.range n).map fun i => BitVec.ofNat W (v / 2 ^ W / 2 ^ (i * W)) := by
      simp [Function.comp_def, s]
    rw [List.range_succ_eq_map, List.map_cons, t, valLimbs, ih]
    simp only [Nat.zero_mul, pow_zero, Nat.div_one, BitVec.toNat_ofNat, e]
    rw [Nat.mod_mul]

@[simp] theorem val_fromVal (v : Nat) : val (fromVal W L v) = v % 2 ^ (L * W) := by
  have h : (fromVal W L v).toList = (List.range L).map fun i => BitVec.ofNat W (v / 2 ^ (i * W)) := by
    apply List.ext_getElem
    · simp
    · intro i h1 h2
      simp [fromVal]
  rw [val, h, valLimbs_digits]

@[simp] theorem fromVal_val (a : UInt W L) : fromVal W L (val a) = a :=
  val_injective (by rw [val_fromVal, Nat.mod_eq_of_lt (val_lt a)])

@[simp] theorem val_zeroUInt : val (zeroUInt W L) = 0 := by
  have : zeroUInt W L = fromVal W L 0 := Vector.ext fun i hi => by simp [zeroUInt]
  rw [this, val_fromVal, Nat.zero_mod]

/-- Limbs as the bits of the value: bit `j` of the value is bit `j % W` of limb `j / W`. -/
theorem val_testBit (a : UInt W L) (i j : Nat) (hi : i < L) (hj : j < W) :
    (val a).testBit (i * W + j) = (a[i]).getLsbD j := by
  rw [BitVec.getLsbD, toNat_limb a i hi, Nat.testBit_mod_two_pow, Nat.testBit_div_two_pow]
  simp [hj, Nat.add_comm]

@[simp] theorem limbAt_eq (a : UInt W L) (i : Nat) (h : i < L) : limbAt a i = a[i] := by simp [limbAt, h]

theorem limbAt_of_le (a : UInt W L) (i : Nat) (h : L ≤ i) : limbAt a i = 0 := by
  simp [limbAt, Vector.getElem?_eq_none h]

/-- A limb at any index as a digit of the value. -/
theorem toNat_limbAt (a : UInt W L) (i : Nat) : (limbAt a i).toNat = val a / 2 ^ (i * W) % 2 ^ W := by
  by_cases h : i < L
  · rw [limbAt_eq a i h, toNat_limb a i h]
  · have hle : L * W ≤ i * W := Nat.mul_le_mul_right W (by omega)
    rw [limbAt_of_le a i (by omega), Nat.div_eq_of_lt (lt_of_lt_of_le (val_lt a) (Nat.pow_le_pow_right (by omega) hle))]
    simp

@[simp] theorem getElem_bitand (a b : UInt W L) (i : Nat) (h : i < L) : (bitand a b)[i] = a[i] &&& b[i] := by
  simp [bitand, wordAnd]

@[simp] theorem getElem_uintOr (a b : UInt W L) (i : Nat) (h : i < L) : (uintOr a b)[i] = a[i] ||| b[i] := by
  simp [uintOr, wordOr]

@[simp] theorem getElem_zeroUInt (i : Nat) (h : i < L) : (zeroUInt W L)[i] = 0 := by simp [zeroUInt]

@[simp] theorem getElem_oneUInt (i : Nat) (h : i < L) : (oneUInt W L)[i] = if i = 0 then 1 else 0 := by simp [oneUInt]

@[simp] theorem getElem_maxUInt (i : Nat) (h : i < L) : (maxUInt W L)[i] = BitVec.allOnes W := by simp [maxUInt]

theorem getElem_shiftLeftOneWithCarry (a : UInt W L) (i : Nat) (h : i < L) :
    (shiftLeftOneWithCarry a).1[i] =
      if i = 0 then shiftLeftOne a[i] else wordOr (shiftLeftOne a[i]) (carryBit a (i - 1)) := by
  simp [shiftLeftOneWithCarry]

/-- R130 for every `n`: the saturated case computes the contract too. -/
theorem val_shiftLeftVartime (a : UInt W L) (n : Nat) :
    val (shiftLeftVartime a n) = val a * 2 ^ n % 2 ^ (L * W) := by
  unfold shiftLeftVartime
  split
  · rename_i h
    obtain ⟨k, rfl⟩ := Nat.exists_eq_add_of_le h
    rw [val_zeroUInt, pow_add, ← mul_assoc, mul_comm (val a), mul_assoc, Nat.mul_mod_right]
  · simp

/-- R145 for every `n`. -/
theorem val_shiftRightVartime (a : UInt W L) (n : Nat) : val (shiftRightVartime a n) = val a / 2 ^ n := by
  have hlt := val_lt a
  unfold shiftRightVartime
  split
  · rename_i h
    rw [val_zeroUInt, Nat.div_eq_of_lt (lt_of_lt_of_le hlt (Nat.pow_le_pow_right (by omega) h))]
  · rw [val_fromVal, Nat.mod_eq_of_lt (lt_of_le_of_lt (Nat.div_le_self _ _) hlt)]

/-- An integer whose limbs show the bits of `v` has the value of `v`, cut to its width. -/
theorem val_of_bits (z : UInt W L) (v : Nat)
    (h : ∀ (i : Nat) (hi : i < L) (j : Nat), j < W → (z[i]).getLsbD j = v.testBit (j + i * W)) :
    val z = v % 2 ^ (L * W) := by
  rw [← val_fromVal (W := W) (L := L)]
  congr 1
  apply Vector.ext
  intro i hi
  apply BitVec.eq_of_getLsbD_eq
  intro j hj
  rw [h i hi j hj, getElem_fromVal, BitVec.getLsbD_ofNat, Nat.testBit_div_two_pow]
  simp [hj]

@[simp] theorem broadcast_true : broadcast W true = BitVec.allOnes W := rfl
@[simp] theorem broadcast_false : broadcast W false = 0 := rfl

/-- A broadcast mask is 0 or all ones. -/
theorem broadcast_cases (x : Choice) : broadcast W x = 0 ∨ broadcast W x = BitVec.allOnes W := by
  cases x <;> simp

end Sys2Proof.Machine
end

