-- ==== Sys2Proof/Laws/State.lean ====
section
/-! SUPPORT. What each update of a block does to each field, so that no proof unfolds a record update. -/

namespace Sys2Proof.Machine

variable {c : Params} (b : Block c)

@[simp] theorem Block.setCarry_u (m : Word c.W) : (b.setCarry m).u = b.u := rfl
@[simp] theorem Block.setCarry_carry (m : Word c.W) : (b.setCarry m).carry = m := rfl
@[simp] theorem Block.setCarry_valid (m : Word c.W) : (b.setCarry m).valid = b.valid := rfl
@[simp] theorem Block.setCarry_err (m : Word c.W) : (b.setCarry m).err = b.err := rfl
@[simp] theorem Block.setCarry_wdata (m : Word c.W) : (b.setCarry m).wdata = b.wdata := rfl
@[simp] theorem Block.setCarry_rdata (m : Word c.W) : (b.setCarry m).rdata = b.rdata := rfl
@[simp] theorem Block.setCarry_pending (m : Word c.W) : (b.setCarry m).pending = b.pending := rfl
@[simp] theorem Block.setCarry_draws (m : Word c.W) : (b.setCarry m).draws = b.draws := rfl

@[simp] theorem Block.setValid_u : (b.setValid).u = b.u := rfl
@[simp] theorem Block.setValid_carry : (b.setValid).carry = b.carry := rfl
@[simp] theorem Block.setValid_valid : (b.setValid).valid = true := rfl
@[simp] theorem Block.setValid_err : (b.setValid).err = b.err := rfl
@[simp] theorem Block.setValid_wdata : (b.setValid).wdata = b.wdata := rfl
@[simp] theorem Block.setValid_rdata : (b.setValid).rdata = b.rdata := rfl
@[simp] theorem Block.setValid_pending : (b.setValid).pending = b.pending := rfl
@[simp] theorem Block.setValid_draws : (b.setValid).draws = b.draws := rfl

@[simp] theorem Block.writeReg_u (r : RegNum) (x : Option (UInt c.W c.LIMBS)) : (b.writeReg r x).u = b.u.set r.val (BigReg.ofValue x) := rfl
@[simp] theorem Block.writeReg_carry (r : RegNum) (x : Option (UInt c.W c.LIMBS)) : (b.writeReg r x).carry = b.carry := rfl
@[simp] theorem Block.writeReg_valid (r : RegNum) (x : Option (UInt c.W c.LIMBS)) : (b.writeReg r x).valid = b.valid := rfl
@[simp] theorem Block.writeReg_err (r : RegNum) (x : Option (UInt c.W c.LIMBS)) : (b.writeReg r x).err = b.err := rfl
@[simp] theorem Block.writeReg_wdata (r : RegNum) (x : Option (UInt c.W c.LIMBS)) : (b.writeReg r x).wdata = b.wdata := rfl
@[simp] theorem Block.writeReg_rdata (r : RegNum) (x : Option (UInt c.W c.LIMBS)) : (b.writeReg r x).rdata = b.rdata := rfl
@[simp] theorem Block.writeReg_pending (r : RegNum) (x : Option (UInt c.W c.LIMBS)) : (b.writeReg r x).pending = b.pending := rfl
@[simp] theorem Block.writeReg_draws (r : RegNum) (x : Option (UInt c.W c.LIMBS)) : (b.writeReg r x).draws = b.draws := rfl

@[simp] theorem Block.writeLimb_u (r : RegNum) (i : Fin c.LIMBS) (x : Word c.W) : (b.writeLimb r i x).u = b.u.set r.val ((b.u[r]).set i.val ⟨x, true⟩) := rfl
@[simp] theorem Block.writeLimb_carry (r : RegNum) (i : Fin c.LIMBS) (x : Word c.W) : (b.writeLimb r i x).carry = b.carry := rfl
@[simp] theorem Block.writeLimb_valid (r : RegNum) (i : Fin c.LIMBS) (x : Word c.W) : (b.writeLimb r i x).valid = b.valid := rfl
@[simp] theorem Block.writeLimb_err (r : RegNum) (i : Fin c.LIMBS) (x : Word c.W) : (b.writeLimb r i x).err = b.err := rfl
@[simp] theorem Block.writeLimb_wdata (r : RegNum) (i : Fin c.LIMBS) (x : Word c.W) : (b.writeLimb r i x).wdata = b.wdata := rfl
@[simp] theorem Block.writeLimb_rdata (r : RegNum) (i : Fin c.LIMBS) (x : Word c.W) : (b.writeLimb r i x).rdata = b.rdata := rfl
@[simp] theorem Block.writeLimb_pending (r : RegNum) (i : Fin c.LIMBS) (x : Word c.W) : (b.writeLimb r i x).pending = b.pending := rfl
@[simp] theorem Block.writeLimb_draws (r : RegNum) (i : Fin c.LIMBS) (x : Word c.W) : (b.writeLimb r i x).draws = b.draws := rfl

@[simp] theorem Block.returns_u (x : Word c.W) : (b.returns x).u = b.u := rfl
@[simp] theorem Block.returns_carry (x : Word c.W) : (b.returns x).carry = b.carry := rfl
@[simp] theorem Block.returns_valid (x : Word c.W) : (b.returns x).valid = b.valid := rfl
@[simp] theorem Block.returns_err (x : Word c.W) : (b.returns x).err = b.err := rfl
@[simp] theorem Block.returns_wdata (x : Word c.W) : (b.returns x).wdata = b.wdata := rfl
@[simp] theorem Block.returns_rdata (x : Word c.W) : (b.returns x).rdata = x := rfl
@[simp] theorem Block.returns_pending (x : Word c.W) : (b.returns x).pending = b.pending := rfl
@[simp] theorem Block.returns_draws (x : Word c.W) : (b.returns x).draws = b.draws := rfl

@[simp] theorem Block.drawn_u : (b.drawn).u = b.u := rfl
@[simp] theorem Block.drawn_carry : (b.drawn).carry = b.carry := rfl
@[simp] theorem Block.drawn_valid : (b.drawn).valid = b.valid := rfl
@[simp] theorem Block.drawn_err : (b.drawn).err = b.err := rfl
@[simp] theorem Block.drawn_wdata : (b.drawn).wdata = b.wdata := rfl
@[simp] theorem Block.drawn_rdata : (b.drawn).rdata = b.rdata := rfl
@[simp] theorem Block.drawn_pending : (b.drawn).pending = b.pending := rfl
@[simp] theorem Block.drawn_draws : (b.drawn).draws = b.draws + 1 := rfl

@[simp] theorem Block.illegal_u : (b.illegal).u = b.u := rfl
@[simp] theorem Block.illegal_carry : (b.illegal).carry = b.carry := rfl
@[simp] theorem Block.illegal_valid : (b.illegal).valid = b.valid := rfl
@[simp] theorem Block.illegal_err : (b.illegal).err = true := rfl
@[simp] theorem Block.illegal_wdata : (b.illegal).wdata = b.wdata := rfl
@[simp] theorem Block.illegal_rdata : (b.illegal).rdata = 0 := rfl
@[simp] theorem Block.illegal_pending : (b.illegal).pending = b.pending := rfl
@[simp] theorem Block.illegal_draws : (b.illegal).draws = b.draws := rfl

@[simp] theorem Block.accept_u (cmd : Command c.W) (rest : List (HostMove c.W)) : (b.accept cmd rest).u = b.u := rfl
@[simp] theorem Block.accept_carry (cmd : Command c.W) (rest : List (HostMove c.W)) : (b.accept cmd rest).carry = b.carry := rfl
@[simp] theorem Block.accept_valid (cmd : Command c.W) (rest : List (HostMove c.W)) : (b.accept cmd rest).valid = b.valid := rfl
@[simp] theorem Block.accept_err (cmd : Command c.W) (rest : List (HostMove c.W)) : (b.accept cmd rest).err = b.err := rfl
@[simp] theorem Block.accept_wdata (cmd : Command c.W) (rest : List (HostMove c.W)) : (b.accept cmd rest).wdata = cmd.wdata := rfl
@[simp] theorem Block.accept_rdata (cmd : Command c.W) (rest : List (HostMove c.W)) : (b.accept cmd rest).rdata = b.rdata := rfl
@[simp] theorem Block.accept_pending (cmd : Command c.W) (rest : List (HostMove c.W)) : (b.accept cmd rest).pending = rest := rfl
@[simp] theorem Block.accept_draws (cmd : Command c.W) (rest : List (HostMove c.W)) : (b.accept cmd rest).draws = b.draws := rfl

@[simp] theorem Block.hostReset_u : (b.hostReset).u = (Block.afterReset c).u := rfl
@[simp] theorem Block.hostReset_carry : (b.hostReset).carry = 0 := rfl
@[simp] theorem Block.hostReset_valid : (b.hostReset).valid = false := rfl
@[simp] theorem Block.hostReset_err : (b.hostReset).err = false := rfl
@[simp] theorem Block.hostReset_wdata : (b.hostReset).wdata = 0 := rfl
@[simp] theorem Block.hostReset_rdata : (b.hostReset).rdata = 0 := rfl
@[simp] theorem Block.hostReset_pending : (b.hostReset).pending = b.pending := rfl
@[simp] theorem Block.hostReset_draws : (b.hostReset).draws = b.draws := rfl

/-- A command that completes answers the block its meaning computes, at the same build. -/
@[simp] theorem complete_mk (f : Block c → Block c) : complete ⟨c, b⟩ f = .next ⟨c, f b⟩ := rfl

end Sys2Proof.Machine
end

