-- ==== Sys2Proof/Laws/Ops.lean ====
section
/-! SUPPORT. What the shared operations over registers and limbs do, said once. -/

namespace Sys2Proof.Machine

variable {c : Params} (b : Block c)

theorem BigReg.ofValue_some {W L : Nat} (a : UInt W L) (i : Nat) (h : i < L) :
    (BigReg.ofValue (some a))[i] = ⟨a[i], true⟩ := by simp [BigReg.ofValue]

theorem BigReg.ofValue_none {W L : Nat} (i : Nat) (h : i < L) :
    (BigReg.ofValue (none : Option (UInt W L)))[i] = LimbCell.unwritten W := by simp [BigReg.ofValue]

/-- After a write of register `r`, register `q` is the new one or as before. -/
theorem Block.writeReg_getElem (r q : RegNum) (x : Option (UInt c.W c.LIMBS)) :
    (b.writeReg r x).u[q] = if r = q then BigReg.ofValue x else b.u[q] := by
  simp only [writeReg_u, Fin.getElem_fin, Vector.getElem_set, Fin.ext_iff]

theorem Block.writeReg_other {r q : RegNum} (x : Option (UInt c.W c.LIMBS)) (h : q ≠ r) :
    (b.writeReg r x).u[q] = b.u[q] := by
  rw [writeReg_getElem, if_neg (Ne.symm h)]

theorem Block.writeReg_same (r : RegNum) (x : Option (UInt c.W c.LIMBS)) :
    (b.writeReg r x).u[r] = BigReg.ofValue x := by
  rw [writeReg_getElem, if_pos rfl]

/-- After a write of the limb `(r, i)`, the cell at `(q, j)` is the new one or as before. -/
theorem Block.cell_writeLimb (r q : RegNum) (i j : Fin c.LIMBS) (x : Word c.W) :
    (b.writeLimb r i x).cell q j = if r = q ∧ i = j then ⟨x, true⟩ else b.cell q j := by
  unfold Block.cell
  simp only [writeLimb_u, Fin.getElem_fin, Vector.getElem_set, Fin.ext_iff]
  by_cases h : r.val = q.val
  · have : q = r := Fin.ext h.symm
    subst this
    simp [Vector.getElem_set]
  · simp [h]

/-- After a write of register `r`, a cell is the new register's or as before. -/
theorem Block.cell_writeReg (r q : RegNum) (x : Option (UInt c.W c.LIMBS)) (j : Fin c.LIMBS) :
    (b.writeReg r x).cell q j = if r = q then (BigReg.ofValue x)[j] else b.cell q j := by
  unfold Block.cell
  rw [Block.writeReg_getElem]
  split <;> rfl

/-- After reset no limb is written. -/
theorem Block.cell_afterReset (r : RegNum) (i : Fin c.LIMBS) :
    (Block.afterReset c).cell r i = LimbCell.unwritten c.W := by simp [Block.cell, Block.afterReset]

/-- What is read of a limb is what its cell holds, when it is written. -/
theorem Block.readLimb_eq_some {r : RegNum} {i : Fin c.LIMBS} {x : Word c.W} :
    b.readLimb r i = some x ↔ b.cell r i = ⟨x, true⟩ := by
  unfold Block.readLimb
  cases b.cell r i with
  | mk w k => cases k <;> simp

theorem Block.readLimb_eq_none {r : RegNum} {i : Fin c.LIMBS} :
    b.readLimb r i = none ↔ (b.cell r i).written = false := by
  unfold Block.readLimb
  cases (b.cell r i).written <;> simp

/-- A limb reads back what was written to it. -/
theorem Block.readLimb_writeLimb_same (r : RegNum) (i : Fin c.LIMBS) (x : Word c.W) :
    (b.writeLimb r i x).readLimb r i = some x := by
  rw [Block.readLimb_eq_some, Block.cell_writeLimb, if_pos ⟨rfl, rfl⟩]

/-- A cell depends on its register only, and a read of a limb on its cell only. -/
theorem Block.cell_congr {b b' : Block c} {r r' : RegNum} (h : b'.u[r'] = b.u[r]) (i : Fin c.LIMBS) :
    b'.cell r' i = b.cell r i := by
  unfold Block.cell
  rw [h]

theorem Block.readLimb_congr {b b' : Block c} {r r' : RegNum} {i i' : Fin c.LIMBS} (h : b'.cell r' i' = b.cell r i) :
    b'.readLimb r' i' = b.readLimb r i := by
  unfold Block.readLimb
  rw [h]

/-- A read depends on the register's cells only. -/
theorem Block.readReg_congr {b b' : Block c} {r r' : RegNum} (h : b'.u[r'] = b.u[r]) : b'.readReg r' = b.readReg r := by
  have hc : ∀ i, b'.cell r' i = b.cell r i := by
    intro i; simp only [Block.cell]; rw [h]
  simp only [Block.readReg, hc]

/-- What is read of a register is what its cells hold, when all are written. -/
theorem Block.readReg_eq_some {r : RegNum} {a : UInt c.W c.LIMBS} :
    b.readReg r = some a ↔ ∀ i : Fin c.LIMBS, b.cell r i = ⟨a[i], true⟩ := by
  unfold Block.readReg
  split
  · rename_i h
    constructor
    · intro e i
      cases e
      cases hc : b.cell r i with
      | mk w k => simpa [hc] using h i
    · intro e
      congr 1
      ext i hi
      simp [e ⟨i, hi⟩]
  · rename_i h
    constructor
    · intro e; cases e
    · intro e
      exact absurd (fun i => by rw [e i]) h

/-- A register reads back what was written to it, specified or not. -/
@[simp] theorem Block.readReg_writeReg_same (r : RegNum) (x : Option (UInt c.W c.LIMBS)) :
    (b.writeReg r x).readReg r = x := by
  have hu := b.writeReg_same r x
  cases x with
  | some a =>
    rw [readReg_eq_some]
    intro i
    simp only [Block.cell]
    rw [hu]
    exact BigReg.ofValue_some a i.val i.isLt
  | none =>
    unfold Block.readReg
    rw [if_neg]
    intro h
    have h0 := h ⟨0, c.has_limb⟩
    simp only [Block.cell] at h0
    rw [hu] at h0
    have e := BigReg.ofValue_none (W := c.W) (L := c.LIMBS) 0 c.has_limb
    simp [e, LimbCell.unwritten] at h0

theorem Block.readReg_writeReg_other {r q : RegNum} (x : Option (UInt c.W c.LIMBS)) (h : q ≠ r) :
    (b.writeReg r x).readReg q = b.readReg q :=
  readReg_congr (b.writeReg_other x h)

/-- The two-source shape on specified sources. -/
theorem Block.binary_some {f : UInt c.W c.LIMBS → UInt c.W c.LIMBS → UInt c.W c.LIMBS} {rd rs1 rs2 : RegNum}
    {x y : UInt c.W c.LIMBS} (hx : b.readReg rs1 = some x) (hy : b.readReg rs2 = some y) :
    b.binary f rd rs1 rs2 = (b.writeReg rd (some (f x y))).returns 0 := by
  simp [Block.binary, hx, hy]

/-- The one-source shape on a specified source. -/
theorem Block.unary_some {f : UInt c.W c.LIMBS → UInt c.W c.LIMBS} {rd rs1 : RegNum} {x : UInt c.W c.LIMBS}
    (hx : b.readReg rs1 = some x) : b.unary f rd rs1 = (b.writeReg rd (some (f x))).returns 0 := by
  simp [Block.unary, hx]

/-- A register written as unspecified has no limb to read. -/
theorem Block.readLimb_writeReg_none (r : RegNum) (i : Fin c.LIMBS) : (b.writeReg r none).readLimb r i = none := by
  have e : (b.writeReg r none).cell r i = LimbCell.unwritten c.W := by
    simp only [Block.cell]
    rw [b.writeReg_same r none]
    exact BigReg.ofValue_none i.val i.isLt
  simp [Block.readLimb, e, LimbCell.unwritten]

end Sys2Proof.Machine
end

