-- ==== Sys2Proof/Laws/PerInstr.lean ====
section
/-! SUPPORT. Facts about each command as syntax, one lemma for each constructor. -/

namespace Sys2Proof.Laws.EncodeFindsRow

/-- Encoding a command gives a word that selects a row of R64, and the row's fields of that word are the command's. -/
def Statement (i : Instr) : Prop := ∃ r, rowOf (encode i) = some r ∧ r.make (encode i) = i

theorem ldl (r : RegNum) (idx : Imm18) : Statement (.ldl r idx) := by
  simp [Statement, rowOf_fields, rows, encode]

theorem stl (r : RegNum) (idx : Imm18) : Statement (.stl r idx) := by
  simp [Statement, rowOf_fields, rows, encode]

theorem rdc : Statement (.rdc) := by
  simp [Statement, rowOf_fields, rows, encode]

theorem rds : Statement (.rds) := by
  simp [Statement, rowOf_fields, rows, encode]

theorem and (rd : RegNum) (rs1 : RegNum) (rs2 : RegNum) : Statement (.and rd rs1 rs2) := by
  simp [Statement, rowOf_fields, rows, encode]

theorem andW (rd : RegNum) (rs1 : RegNum) (rs2 : RegNum) : Statement (.andW rd rs1 rs2) := by
  simp [Statement, rowOf_fields, rows, encode]

theorem andF (rd : RegNum) (rs1 : RegNum) (rs2 : RegNum) : Statement (.andF rd rs1 rs2) := by
  simp [Statement, rowOf_fields, rows, encode]

theorem shl1c (rd : RegNum) (rs1 : RegNum) : Statement (.shl1c rd rs1) := by
  simp [Statement, rowOf_fields, rows, encode]

theorem shl (rd : RegNum) (rs1 : RegNum) (n : Imm18) : Statement (.shl rd rs1 n) := by
  simp [Statement, rowOf_fields, rows, encode]

theorem shlW (rd : RegNum) (rs1 : RegNum) (n : Imm18) : Statement (.shlW rd rs1 n) := by
  simp [Statement, rowOf_fields, rows, encode]

theorem shlF (rd : RegNum) (rs1 : RegNum) (n : Imm18) : Statement (.shlF rd rs1 n) := by
  simp [Statement, rowOf_fields, rows, encode]

theorem shr (rd : RegNum) (rs1 : RegNum) (n : Imm18) : Statement (.shr rd rs1 n) := by
  simp [Statement, rowOf_fields, rows, encode]

theorem shrW (rd : RegNum) (rs1 : RegNum) (n : Imm18) : Statement (.shrW rd rs1 n) := by
  simp [Statement, rowOf_fields, rows, encode]

theorem shrF (rd : RegNum) (rs1 : RegNum) (n : Imm18) : Statement (.shrF rd rs1 n) := by
  simp [Statement, rowOf_fields, rows, encode]

theorem shlw (rl : RegNum) (rh : RegNum) (n : Imm18) : Statement (.shlw rl rh n) := by
  simp [Statement, rowOf_fields, rows, encode]

end Sys2Proof.Laws.EncodeFindsRow
end

