-- ==== Sys2Proof/Laws/Step.lean ====
section
/-! SUPPORT. What each command does to the block, as one equation for each arm of `exec`, and what a step does. -/

namespace Sys2Proof.Machine

variable {c : Params} (b : Block c)

@[simp] theorem exec_ldl (r : RegNum) (idx : Imm18) :
    exec (.ldl r idx) ⟨c, b⟩ = .next ⟨c, loadLimb r idx b⟩ := rfl
@[simp] theorem exec_stl (r : RegNum) (idx : Imm18) :
    exec (.stl r idx) ⟨c, b⟩ = .next ⟨c, storeLimb r idx b⟩ := rfl
@[simp] theorem exec_rdc :
    exec (.rdc) ⟨c, b⟩ = .next ⟨c, b.returns b.carry⟩ := rfl
@[simp] theorem exec_rds :
    exec (.rds) ⟨c, b⟩ = .next ⟨c, b.returns b.status⟩ := rfl
@[simp] theorem exec_and (rd : RegNum) (rs1 : RegNum) (rs2 : RegNum) :
    exec (.and rd rs1 rs2) ⟨c, b⟩ = .next ⟨c, b.binary bitand rd rs1 rs2⟩ := rfl
@[simp] theorem exec_andW (rd : RegNum) (rs1 : RegNum) (rs2 : RegNum) :
    exec (.andW rd rs1 rs2) ⟨c, b⟩ = .next ⟨c, b.binary bitand rd rs1 rs2⟩ := rfl
@[simp] theorem exec_andF (rd : RegNum) (rs1 : RegNum) (rs2 : RegNum) :
    exec (.andF rd rs1 rs2) ⟨c, b⟩ = .next ⟨c, (b.binary bitand rd rs1 rs2).setValid⟩ := rfl
@[simp] theorem exec_shl1c (rd : RegNum) (rs1 : RegNum) :
    exec (.shl1c rd rs1) ⟨c, b⟩ = .next ⟨c, shiftOneCarry rd rs1 b⟩ := rfl
@[simp] theorem exec_shl (rd : RegNum) (rs1 : RegNum) (n : Imm18) :
    exec (.shl rd rs1 n) ⟨c, b⟩ = .next ⟨c, b.unary (fun a => shiftLeftVartime a n.toNat) rd rs1⟩ := rfl
@[simp] theorem exec_shlW (rd : RegNum) (rs1 : RegNum) (n : Imm18) :
    exec (.shlW rd rs1 n) ⟨c, b⟩ = .next ⟨c, b.unary (fun a => shiftLeftVartime a n.toNat) rd rs1⟩ := rfl
@[simp] theorem exec_shlF (rd : RegNum) (rs1 : RegNum) (n : Imm18) :
    exec (.shlF rd rs1 n) ⟨c, b⟩ = .next ⟨c, (b.unary (fun a => shiftLeftVartime a n.toNat) rd rs1).setValid⟩ := rfl
@[simp] theorem exec_shr (rd : RegNum) (rs1 : RegNum) (n : Imm18) :
    exec (.shr rd rs1 n) ⟨c, b⟩ = .next ⟨c, b.unary (fun a => shiftRightVartime a n.toNat) rd rs1⟩ := rfl
@[simp] theorem exec_shrW (rd : RegNum) (rs1 : RegNum) (n : Imm18) :
    exec (.shrW rd rs1 n) ⟨c, b⟩ = .next ⟨c, b.unary (fun a => shiftRightVartime a n.toNat) rd rs1⟩ := rfl
@[simp] theorem exec_shrF (rd : RegNum) (rs1 : RegNum) (n : Imm18) :
    exec (.shrF rd rs1 n) ⟨c, b⟩ = .next ⟨c, (b.unary (fun a => shiftRightVartime a n.toNat) rd rs1).setValid⟩ := rfl
@[simp] theorem exec_shlw (rl : RegNum) (rh : RegNum) (n : Imm18) :
    exec (.shlw rl rh n) ⟨c, b⟩ = .next ⟨c, wideShift rl rh n b⟩ := rfl

theorem step_idle (h : b.pending = []) : step ⟨c, b⟩ = .next ⟨c, b⟩ := by simp only [step, h]

theorem step_reset {rest : List (HostMove c.W)} (h : b.pending = .reset :: rest) :
    step ⟨c, b⟩ = .next ⟨c, Block.hostReset { b with pending := rest }⟩ := by simp only [step, h]

theorem step_issue_illegal {cmd : Command c.W} {rest : List (HostMove c.W)} {e : Illegal}
    (h : b.pending = .issue cmd :: rest) (hd : decode c.LIMBS cmd.word = .error e) :
    step ⟨c, b⟩ = .next ⟨c, (b.accept cmd rest).illegal⟩ := by simp only [step, h, hd]

/-- A run of no step, and of one step more. -/
theorem run_zero (s : State) : Host.Core.run core 0 s = .next s := rfl

theorem run_succ {s t : State} (k : Nat) (h : step s = .next t) :
    Host.Core.run core (k + 1) s = Host.Core.run core k t := by
  have h' : core.step s = .next t := h
  simp only [Host.Core.run, h']

/-- Two runs, one after the other. -/
theorem run_append {s t : State} (j k : Nat) (h : Host.Core.run core j s = .next t) :
    Host.Core.run core (j + k) s = Host.Core.run core k t := by
  induction j generalizing s with
  | zero => cases h; simp
  | succ j ih =>
    rw [Nat.succ_add]
    cases hs : step s with
    | next s1 => rw [run_succ _ hs] at h ⊢; exact ih h
    | fault f => cases f
    | refused r =>
      have h' : core.step s = .refused r := hs
      simp only [Host.Core.run, h'] at h
      cases h

/-- Every command ends in a next state at the same build. -/
theorem exec_next (i : Instr) : ∃ b' : Block c, exec i ⟨c, b⟩ = .next ⟨c, b'⟩ := by
  cases i <;> exact ⟨_, rfl⟩

end Sys2Proof.Machine
end

