-- ==== Sys2Proof/Tests/Slice0.lean ====
section
/-! SUPPORT. Tests of the model, with results taken from spec/ (95_test_vectors.md unless a comment says otherwise), and
for every obligation with hypotheses a witness that meets them together. -/

namespace Sys2Proof.Tests

open Sys2Proof.Machine

/-! ## Small builds and blocks -/

/-- The build of the derived vectors: `W = 8`, `LIMBS = 2`, `TB = 16`. -/
abbrev p8 : Params := ⟨8, 2, by decide, by decide, by decide⟩
/-- 128-bit halves, `W = 64`, `LIMBS = 2` (V7, V8). -/
abbrev p128 : Params := ⟨64, 2, by decide, by decide, by decide⟩
/-- One limb, `TB = 8`: the smallest build. -/
abbrev p1 : Params := ⟨8, 1, by decide, by decide, by decide⟩

/-- The block after reset, but register `k` holds the `k`-th of `vals`; the later registers stay unspecified. -/
def withRegs (c : Params) (vals : List Nat) : Block c :=
  { Block.afterReset c with
    u := Vector.ofFn fun r => BigReg.ofValue (vals[r.val]?.map fun v => fromVal c.W c.LIMBS v) }

/-- The same with one move of the host to come. -/
def withMove (c : Params) (vals : List Nat) (m : HostMove c.W) : Block c := { withRegs c vals with pending := [m] }

/-- The value of `u[r]` in the state answered, if it is specified. -/
def regOf (o : Host.Outcome State Fault Refusal) (r : RegNum) : Option Nat :=
  match o with
  | .next ⟨_, b⟩ => (b.readReg r).map val
  | .fault _ => none
  | .refused _ => none

/-- `rdata`, `carry`, `valid`, `err` of the state answered. -/
def flagsOf (o : Host.Outcome State Fault Refusal) : Option (Nat × Nat × Bool × Bool) :=
  match o with
  | .next ⟨_, b⟩ => some (b.rdata.toNat, b.carry.toNat, b.valid, b.err)
  | .fault _ => none
  | .refused _ => none

/-- The first two registers of 2.1 and 2.3. -/
abbrev pair : State := ⟨p8, withRegs p8 [0xCA35, 0x6CF0]⟩

/-! ## Well-formedness refuses ill-formed terms (R64) -/

theorem test_wf_ldl_index : (Instr.ldl 2 2).wf 2 = false ∧ (Instr.ldl 2 1).wf 2 = true := by decide
theorem test_wf_stl_index : (Instr.stl 7 262143).wf 131071 = false ∧ (Instr.stl 7 0).wf 1 = true := by decide
theorem test_wf_shlw_registers : (Instr.shlw 3 3 1).wf 2 = false ∧ (Instr.shlw 3 4 1).wf 2 = true := by decide

/-! ## Decoding, each word written field by field from R61 and R64: op, cv, ra, rb, then rc and 15 bits, or imm18 -/

theorem test_decode_ldl : decode 2 0b000001_00_010_000_000000000000000001#32 = .ok (.ldl 2 1) := by decide
theorem test_decode_stl : decode 2 0b000010_00_111_000_000000000000000001#32 = .ok (.stl 7 1) := by decide
theorem test_decode_rdc : decode 2 0b000011_00_000_000_000000000000000000#32 = .ok .rdc := by decide
theorem test_decode_rds : decode 2 0b000100_00_000_000_000000000000000000#32 = .ok .rds := by decide
theorem test_decode_and : decode 2 0b001000_00_011_001_010_000000000000000#32 = .ok (.and 3 1 2) := by decide
theorem test_decode_andW : decode 2 0b001000_01_011_001_010_000000000000000#32 = .ok (.andW 3 1 2) := by decide
theorem test_decode_andF : decode 2 0b001000_10_100_110_111_000000000000000#32 = .ok (.andF 4 6 7) := by decide
theorem test_decode_shl1c : decode 2 0b001001_00_100_011_000000000000000000#32 = .ok (.shl1c 4 3) := by decide
theorem test_decode_shl : decode 2 0b001010_00_101_100_000000000001000001#32 = .ok (.shl 5 4 65) := by decide
theorem test_decode_shlW : decode 2 0b001010_01_101_100_000000000001000001#32 = .ok (.shlW 5 4 65) := by decide
theorem test_decode_shlF : decode 2 0b001010_10_101_100_100000000000000000#32 = .ok (.shlF 5 4 131072) := by decide
theorem test_decode_shr : decode 2 0b001011_00_110_101_000000000001011000#32 = .ok (.shr 6 5 88) := by decide
theorem test_decode_shrW : decode 2 0b001011_01_110_101_000000000001011000#32 = .ok (.shrW 6 5 88) := by decide
theorem test_decode_shrF : decode 2 0b001011_10_110_101_111111111111111111#32 = .ok (.shrF 6 5 262143) := by decide
theorem test_decode_shlw : decode 2 0b001100_00_000_001_000000000010000000#32 = .ok (.shlw 0 1 128) := by decide

/-- The illegal words of 2.6, each with the sub-case of R66 that 2.6 gives. -/
theorem test_decode_illegal : ∀ p ∈ ([(0x00000000, .unassignedOp), (0xFFFFFFFF, .unassignedOp),
      (0x14000000, .unassignedOp), (0x34000000, .unassignedOp), (0x80000000, .unassignedOp),
      (0x23650000, .reservedCv), (0x27000000, .reservedCv), (0x2BB00041, .reservedCv), (0x2FD40058, .reservedCv),
      (0x25000000, .conventionNotOffered), (0x26000000, .conventionNotOffered),
      (0x31040080, .conventionNotOffered), (0x05400001, .conventionNotOffered), (0x09400000, .conventionNotOffered),
      (0x0D000000, .conventionNotOffered), (0x12000000, .conventionNotOffered)] : List (CmdWord × Illegal)),
    decode 2 p.1 = .error p.2 := by decide

theorem test_decode_illegal_constraints : ∀ p ∈ ([(0x20650001, .mustBeZero), (0x20654000, .mustBeZero),
      (0x248C0001, .mustBeZero), (0x248C8000, .mustBeZero), (0x04440001, .mustBeZero), (0x0C000001, .mustBeZero),
      (0x0C200000, .mustBeZero), (0x10040000, .mustBeZero), (0x04400002, .limbIndex), (0x0443FFFF, .limbIndex),
      (0x08400002, .limbIndex), (0x30000080, .sameRegister), (0x30240003, .sameRegister),
      (0x30FC0000, .sameRegister)] : List (CmdWord × Illegal)),
    decode 2 p.1 = .error p.2 := by decide

/-- `0x04400002` is legal when `LIMBS > 2` (2.6); the host's table words are read at `LIMBS = 4`. -/
theorem test_decodeTableWord : decodeTableWord 32 0x04400002 = some (.ldl 2 2) ∧
    decodeTableWord 32 0x04400004 = none := by decide

/-! ## Commands, one step each -/

theorem test_and : regOf (exec (.and 2 0 1) pair) 2 = some 0x4830 ∧
    flagsOf (exec (.and 2 0 1) pair) = some (0, 0, false, false) := by decide
/-- Aliasing of 2.1, the destination a source. -/
theorem test_and_in_place : regOf (exec (.and 0 0 1) pair) 0 = some 0x4830 ∧
    regOf (exec (.and 0 0 1) pair) 1 = some 0x6CF0 := by decide
theorem test_andW : regOf (exec (.andW 2 0 1) pair) 2 = some 0x4830 ∧
    flagsOf (exec (.andW 2 0 1) pair) = some (0, 0, false, false) := by decide
theorem test_andF : regOf (exec (.andF 2 0 1) pair) 2 = some 0x4830 ∧
    flagsOf (exec (.andF 2 0 1) pair) = some (0, 0, true, false) := by decide
theorem test_shl1c_carry : regOf (exec (.shl1c 4 0) pair) 4 = some 0x946A ∧
    flagsOf (exec (.shl1c 4 0) pair) = some (0, 0xFF, false, false) := by decide
/-- `0x0080` to `0x0100`: a bit crosses the limb boundary, no carry out. -/
theorem test_shl1c_limb_boundary : regOf (exec (.shl1c 0 0) ⟨p8, withRegs p8 [0x0080]⟩) 0 = some 0x0100 ∧
    flagsOf (exec (.shl1c 0 0) ⟨p8, withRegs p8 [0x0080]⟩) = some (0, 0, false, false) := by decide
theorem test_shl : ∀ p ∈ ([(0, 0xCA35), (7, 0x1A80), (8, 0x3500), (9, 0x6A00), (15, 0x8000), (16, 0), (262143, 0)] :
    List (Imm18 × Nat)), regOf (exec (.shl 2 0 p.1) pair) 2 = some p.2 := by decide
theorem test_shlW : regOf (exec (.shlW 2 0 11) pair) 2 = some 0xA800 ∧
    flagsOf (exec (.shlW 2 0 11) pair) = some (0, 0, false, false) := by decide
theorem test_shlF : regOf (exec (.shlF 2 0 16) pair) 2 = some 0 ∧
    flagsOf (exec (.shlF 2 0 16) pair) = some (0, 0, true, false) := by decide
theorem test_shr : ∀ p ∈ ([(0, 0xCA35), (7, 0x0194), (8, 0x00CA), (9, 0x0065), (15, 1), (16, 0), (262143, 0)] :
    List (Imm18 × Nat)), regOf (exec (.shr 2 0 p.1) pair) 2 = some p.2 := by decide
theorem test_shrW : regOf (exec (.shrW 2 0 11) pair) 2 = some 0x0019 ∧
    flagsOf (exec (.shrW 2 0 11) pair) = some (0, 0, false, false) := by decide
theorem test_shrF : regOf (exec (.shrF 2 0 16) pair) 2 = some 0 ∧
    flagsOf (exec (.shrF 2 0 16) pair) = some (0, 0, true, false) := by decide
/-- 2.4, `n = 8` and `n = 20` from `(0xCA35, 0x0012)`. -/
theorem test_shlw : ∀ p ∈ ([(8, 0x3500, 0x12CA), (15, 0x8000, 0x651A), (16, 0, 0xCA35), (20, 0, 0xA350), (32, 0, 0)] :
      List (Imm18 × Nat × Nat)),
    regOf (exec (.shlw 0 1 p.1) ⟨p8, withRegs p8 [0xCA35, 0x0012]⟩) 0 = some p.2.1 ∧
      regOf (exec (.shlw 0 1 p.1) ⟨p8, withRegs p8 [0xCA35, 0x0012]⟩) 1 = some p.2.2 := by decide
/-- V7: the document's `(ONE, ONE)` by 128, with 128-bit halves. -/
theorem test_shlw_V7 : regOf (exec (.shlw 0 1 128) ⟨p128, withRegs p128 [1, 1]⟩) 0 = some 0 ∧
    regOf (exec (.shlw 0 1 128) ⟨p128, withRegs p128 [1, 1]⟩) 1 = some 1 := by decide
/-- V5: the document's constant `N` shifted left by 65, at `W = 64`, `LIMBS = 4`. -/
theorem test_shl_V5 :
    regOf (exec (.shl 5 0 65) ⟨Config.build, withRegs Config.build
      [0xFFFFFFFFFFFFFFFFFFFFFFFFFFFFFFFEBAAEDCE6AF48A03BBFD25E8CD0364141]⟩) 5 =
      some 0xFFFFFFFFFFFFFFFD755DB9CD5E9140777FA4BD19A06C82820000000000000000 := by decide
/-- V6 limb by limb: the datapath's form of the shift by 88. -/
theorem test_shiftLeftLimbs_V6 :
    val (shiftLeftLimbs (fromVal 64 4 0xFFFFFFFFFFFFFFFFFFFFFFFFFFFFFFFEBAAEDCE6AF48A03BBFD25E8CD0364141) 88) =
      0xFFFFFFFFFEBAAEDCE6AF48A03BBFD25E8CD03641410000000000000000000000 := by decide +kernel
theorem test_shiftRightLimbs_88 :
    val (shiftRightLimbs (fromVal 64 4 0xFFFFFFFFFFFFFFFFFFFFFFFFFFFFFFFEBAAEDCE6AF48A03BBFD25E8CD0364141) 88) =
      0x0000000000000000000000FFFFFFFFFFFFFFFFFFFFFFFFFFFFFFFEBAAEDCE6AF := by decide +kernel

/-! 2.5, and step: the host issues a word. -/

/-- 2.5 rows 3 to 5: after the first LDL the other limb stays unspecified; after the second the register is `0xCA35`. -/
theorem test_ldl : regOf (step ⟨p8, withMove p8 [] (.issue ⟨0x04000001, 0xCA⟩)⟩) 0 = none ∧
    regOf (step ⟨p8, withMove p8 [0xFF35] (.issue ⟨0x04000001, 0xCA⟩)⟩) 0 = some 0xCA35 := by decide
theorem test_stl : flagsOf (step ⟨p8, withMove p8 [0xCA36] (.issue ⟨0x08000000, 0xEE⟩)⟩) =
    some (0x36, 0, false, false) := by decide
/-- P3 step 4: RDC after a carry returns the mask. -/
theorem test_rdc : flagsOf (exec .rdc ⟨p8, { withRegs p8 [] with carry := 0xFF }⟩) =
    some (0xFF, 0xFF, false, false) := by decide
/-- P3 step 12, `E = 1, C = 1, V = 0`: STATUS is 6; and from reset it is 0 (2.5 row 1). -/
theorem test_rds : flagsOf (exec .rds ⟨p8, { withRegs p8 [] with carry := 0xFF, err := true }⟩) =
      some (6, 0xFF, false, true) ∧
    flagsOf (step (State.reset.withFetchWord 32 0x10000000)) = some (0, 0, false, false) := by decide
/-- P3 steps 8 and 9: an illegal word sets `err` and nothing else. -/
theorem test_illegal : flagsOf (step ⟨p8, withMove p8 [0xCA35] (.issue ⟨0x00000000, 0x77⟩)⟩) = some (0, 0, false, true) ∧
    regOf (step ⟨p8, withMove p8 [0xCA35] (.issue ⟨0x04000002, 0x77⟩)⟩) 0 = some 0xCA35 := by decide
/-- R210: a reset clears `err` and makes every limb unspecified. -/
theorem test_reset : flagsOf (step ⟨p8, { withMove p8 [0xCA35] .reset with err := true, valid := true }⟩) =
      some (0, 0, false, false) ∧
    regOf (step ⟨p8, withMove p8 [0xCA35] .reset⟩) 0 = none := by decide

/-- R79 and R80: lines as the document writes them. -/
theorem test_asm_text : (AsmLine.ldl 2 3 (7 : Word 8)).text = "LDL u2, #3, 7" ∧
    (AsmLine.command (W := 8) (.shlF 5 4 65)).text = "SHL.F u5, u4, #65" ∧
    (AsmLine.clr (W := 8) 7).text = "CLR u7" := by decide

/-! ## Witnesses: for each obligation with hypotheses, a state and operands that meet them, each clause at a boundary -/

/-- The first two registers of 2.1, and every move of the host's list to come. -/
abbrev blockWith (ms : List (HostMove 8)) : Block p8 := { withRegs p8 [0xCA35, 0x6CF0] with pending := ms }

theorem witness_DecodeOfEncode : ∀ i ∈ [Instr.ldl 7 1, .stl 0 0, .rdc, .rds, .and 7 7 7, .andW 0 0 0, .andF 1 2 3,
    .shl1c 4 4, .shl 7 7 262143, .shlW 0 0 0, .shlF 1 1 16, .shr 7 7 262143, .shrW 0 0 0, .shrF 1 1 15, .shlw 7 0 262143],
    i.wf 2 = true := by decide

theorem witness_EncodeOfDecode : decode 2 0x04400001 = .ok (.ldl 2 1) ∧ decode 2 0x30040080 = .ok (.shlw 0 1 128) := by
  decide

/-- A word for each of (a) to (f) and one on no list, each at a boundary of its range, is the next move of a block. -/
theorem witness_IllegalWords : ∀ w ∈ ([0x00000000, 0x23650000, 0x25000000, 0x20650001, 0x248C8000, 0x04440001,
      0x0C200000, 0x04400002, 0x30FC0000, 0x04400001] : List CmdWord),
    ∃ rest, (blockWith [.issue ⟨w, 0x77⟩, .reset]).pending = .issue ⟨w, 0x77⟩ :: rest := fun _ _ => ⟨_, rfl⟩

/-- The same words under the clauses of R66: the first nine are on the list, one clause each; the last is not. -/
theorem witness_IllegalWords_clauses :
    (0x00000000 / 2 ^ 26 ∉ [1, 2, 3, 4, 8, 9, 10, 11, 12]) ∧ (0x23650000 / 2 ^ 24 % 4 = 3) ∧
    (0x25000000 / 2 ^ 24 % 4 = 1 ∧ 0x25000000 / 2 ^ 26 = 9) ∧
    (0x20650001 / 2 ^ 26 = 8 ∧ 0x20650001 % 2 ^ 15 ≠ 0) ∧ (0x248C8000 / 2 ^ 26 = 9 ∧ 0x248C8000 % 2 ^ 18 ≠ 0) ∧
    (0x04440001 / 2 ^ 26 = 1 ∧ 0x04440001 / 2 ^ 18 % 8 ≠ 0) ∧ (0x0C200000 / 2 ^ 26 = 3 ∧ 0x0C200000 % 2 ^ 24 ≠ 0) ∧
    (0x04400002 / 2 ^ 26 = 1 ∧ 2 ≤ 0x04400002 % 2 ^ 18) ∧
    (0x30FC0000 / 2 ^ 26 = 12 ∧ 0x30FC0000 / 2 ^ 21 % 8 = 0x30FC0000 / 2 ^ 18 % 8) ∧
    (0x04400001 / 2 ^ 26 = 1 ∧ 0x04400001 / 2 ^ 24 % 4 = 0 ∧ 0x04400001 / 2 ^ 18 % 8 = 0 ∧
      0x04400001 % 2 ^ 18 < 2) := by decide

theorem witness_StepRuns : (blockWith [.issue ⟨0x20480000, 0⟩]).pending = .issue ⟨0x20480000, 0⟩ :: [] ∧
    decode 2 0x20480000 = .ok (.and 2 2 0) := ⟨rfl, by decide⟩

theorem witness_HostReset : (blockWith [.reset]).pending = .reset :: [] ∧
    ∃ t : State, step ⟨p8, { blockWith [.reset] with err := true }⟩ = .next t ∧ t.blk.err = false :=
  ⟨rfl, _, rfl, rfl⟩

theorem witness_Idle : (blockWith []).pending = [] := rfl

theorem witness_StepKeepsTheInvariant : State.Inv ⟨p8, blockWith [.issue ⟨0x24900000, 0⟩]⟩ ∧
    ∃ t : State, step ⟨p8, blockWith [.issue ⟨0x24900000, 0⟩]⟩ = .next t :=
  ⟨⟨Or.inl rfl, by decide⟩, _, rfl⟩

theorem witness_OnlyShl1cWritesCarry : ∃ b' : Block p8, exec (.shl 2 0 1) ⟨p8, blockWith []⟩ = .next ⟨p8, b'⟩ ∧
    ∀ rd rs1, (Instr.shl 2 0 1) ≠ .shl1c rd rs1 := ⟨_, rfl, by decide⟩

theorem witness_OnlyFlaggedFormsWriteValid :
    ∃ b' : Block p8, exec (.andF 2 0 1) ⟨p8, blockWith []⟩ = .next ⟨p8, b'⟩ := ⟨_, rfl⟩

/-- One flagged command and one illegal word. -/
theorem witness_RunFlags : (blockWith [.issue ⟨0x22440000, 0⟩, .issue ⟨0x00000000, 0⟩, .reset]).pending =
    [(⟨0x22440000, 0⟩ : Command 8), ⟨0x00000000, 0⟩].map HostMove.issue ++ [.reset] := rfl

/-- Two specified registers, for the statements about AND, SHL1C, SHL, SHR and the pseudo-instructions. -/
theorem witness_specified_sources : (blockWith []).readReg 0 = some (fromVal 8 2 0xCA35) ∧
    (blockWith []).readReg 1 = some (fromVal 8 2 0x6CF0) := by decide

theorem witness_Shlw : (0 : RegNum) ≠ 1 ∧ (blockWith []).readReg 0 = some (fromVal 8 2 0xCA35) ∧
    (blockWith []).readReg 1 = some (fromVal 8 2 0x6CF0) ∧ (7 : RegNum) = 7 := by decide

/-- LDL and STL: the largest index in range, the smallest out of range; a specified limb and an unspecified one. -/
theorem witness_limb_transfer : (1 : Imm18).toNat < p8.LIMBS ∧ p8.LIMBS ≤ (2 : Imm18).toNat ∧
    (blockWith []).readLimb 0 1 = some 0xCA ∧ (blockWith []).readLimb 7 1 = none := by decide

theorem witness_SingleBitShift : (1 : Nat) ≤ 8 ∧ (1 : Nat) ≤ 1 := by decide

theorem witness_DataWordDefaults :
    (∃ b' : Block p8, exec (.shl1c 2 0) ⟨p8, blockWith []⟩ = .next ⟨p8, b'⟩ ∧
      (∀ r idx, (Instr.shl1c 2 0) ≠ .stl r idx) ∧ (Instr.shl1c 2 0) ≠ .rdc ∧ (Instr.shl1c 2 0) ≠ .rds) ∧
    (∃ b' : Block p8, exec (.stl 0 2) ⟨p8, blockWith []⟩ = .next ⟨p8, b'⟩ ∧ (Instr.stl 0 2).wf p8.LIMBS = false) ∧
    (∃ b' : Block p8, exec (.stl 0 1) ⟨p8, blockWith []⟩ = .next ⟨p8, b'⟩ ∧
      (∀ r idx, (Instr.stl 0 1) ≠ .ldl r idx)) :=
  ⟨⟨_, rfl, nofun, nofun, nofun⟩, ⟨_, rfl, rfl⟩, _, rfl, nofun⟩

/-- One source unspecified; the other, in either place, specified; two different registers for SHLW. -/
theorem witness_UnspecifiedSource : (blockWith []).readReg 7 = none ∧ (blockWith []).readReg 0 ≠ none ∧
    (7 : RegNum) ≠ 0 := by decide

theorem witness_WrittenSources : (Instr.shlw 0 1 8).wf p8.LIMBS = true ∧ (blockWith []).SourcesWritten (.shlw 0 1 8) ∧
    (blockWith []).SourcesWritten (.ldl 7 1) ∧ (blockWith []).SourcesWritten (.stl 0 1) := by
  refine ⟨by decide, ?_, ?_, ?_⟩ <;> unfold Block.SourcesWritten <;> decide

theorem witness_RepeatingTransfers :
    (∃ b' : Block p8, exec (.ldl 0 1) ⟨p8, blockWith []⟩ = .next ⟨p8, b'⟩) ∧
    ((1 : Imm18).toNat < p8.LIMBS ∧ (blockWith []).readLimb 0 1 ≠ none ∧
      ∃ b' : Block p8, exec (.stl 0 1) ⟨p8, blockWith []⟩ = .next ⟨p8, b'⟩) ∧
    (∀ i ∈ [Instr.rdc, .rds], ∃ b' : Block p8, exec i ⟨p8, blockWith []⟩ = .next ⟨p8, b'⟩) :=
  ⟨⟨_, rfl⟩, ⟨by decide, by decide, _, rfl⟩, fun i _ => exec_next _ i⟩

/-- The largest literal. -/
theorem witness_Ldu : 0xFFFF < 2 ^ p8.TB ∧ (blockWith ((AsmLine.ldu 3 0xFFFF).moves p8 ++ [.reset])).pending =
    (AsmLine.ldu 3 0xFFFF).moves p8 ++ [.reset] := by decide

/-- With `witness_specified_sources`: every one-command pseudo-instruction is the next move. -/
theorem witness_Pseudo : ∀ l ∈ [(AsmLine.mov 0 1 : AsmLine 8), .andEq 0 1, .andEqW 0 1, .shlEq 0 1, .shlEqW 0 1,
    .shrEq 0 1, .shrEqW 0 1, .clr 0], (blockWith (l.moves p8 ++ [])).pending = l.moves p8 ++ [] ∧
      (blockWith (l.moves p8 ++ [])).readReg 0 = some (fromVal 8 2 0xCA35) ∧
      (blockWith (l.moves p8 ++ [])).readReg 1 = some (fromVal 8 2 0x6CF0) := by
  have h := witness_specified_sources
  exact fun l _ => ⟨rfl, h.1, h.2⟩

/-- Two blocks that differ in registers, flags and data words, with the same words to come. -/
theorem witness_PublicTrace : Block.SamePublic
    { blockWith [.issue ⟨0x04000001, 0x11⟩, .reset] with valid := true, carry := 0xFF }
    { withRegs p8 [0, 1, 2] with pending := [.issue ⟨0x04000001, 0xEE⟩, .reset] } := ⟨rfl, rfl⟩

theorem witness_WriteOnlyDeclared : (∃ b' : Block p8, exec (.and 2 0 1) ⟨p8, blockWith []⟩ = .next ⟨p8, b'⟩) ∧
    (⟨1, 1⟩ : CellRef) ∉ cellsWritten p8.LIMBS (.and 2 0 1) := ⟨⟨_, rfl⟩, by decide⟩

/-- Two blocks that agree on the source of a shift and on no other register. -/
theorem witness_ReadOnlyDeclared :
    (∀ (r : RegNum) (k : Fin p8.LIMBS), (⟨r, k.val⟩ : CellRef) ∈ cellsRead p8.LIMBS (.shl 2 0 1) →
      (withRegs p8 [0xCA35, 1]).cell r k = (withRegs p8 [0xCA35, 2, 3]).cell r k) ∧
    (withRegs p8 [0xCA35, 1]).carry = (withRegs p8 [0xCA35, 2, 3]).carry ∧
    (withRegs p8 [0xCA35, 1]).valid = (withRegs p8 [0xCA35, 2, 3]).valid ∧
    (withRegs p8 [0xCA35, 1]).err = (withRegs p8 [0xCA35, 2, 3]).err ∧
    (withRegs p8 [0xCA35, 1]).wdata = (withRegs p8 [0xCA35, 2, 3]).wdata ∧
    (withRegs p8 [0xCA35, 1]).draws = (withRegs p8 [0xCA35, 2, 3]).draws ∧
    (∃ a' : Block p8, exec (.shl 2 0 1) ⟨p8, withRegs p8 [0xCA35, 1]⟩ = .next ⟨p8, a'⟩) ∧
    ∃ b' : Block p8, exec (.shl 2 0 1) ⟨p8, withRegs p8 [0xCA35, 2, 3]⟩ = .next ⟨p8, b'⟩ :=
  ⟨by decide, rfl, rfl, rfl, rfl, rfl, ⟨_, rfl⟩, _, rfl⟩

/-- `ValIsABijection` at its largest value and limb, `WordPrimitivesAreAsDefined` and `OrIsSumWhereverUsed` at the largest
and smallest shift. -/
theorem witness_functions : (1 : Nat) ≤ 8 ∧ (1 : Nat) ≤ 2 ∧ 2 ^ (2 * 8) - 1 < 2 ^ (2 * 8) ∧ (7 : Nat) < 8 ∧ (0 : Nat) < 8 ∧
    (1 : Nat) < 8 := by decide

/-- The shift laws at `n = 0`, `n = TB - 1`, `n = TB`, `n = 2 * TB`. -/
theorem witness_shift_amounts : 1 ≤ 8 ∧ 1 ≤ 2 ∧ 0 < 2 * 8 ∧ 15 < 2 * 8 ∧ 2 * 8 ≤ 16 ∧ 16 ≤ 2 * 8 ∧
    2 * (2 * 8) ≤ 32 := by decide

end Sys2Proof.Tests
end

section
/-! The value of a fixed-width integer as a bijection (00_scope.md R10, 10_state.md R21). -/

namespace Sys2Proof.Machine

variable {W L : Nat}

theorem valLimbs_eq_sum (l : List (Word W)) :
    valLimbs l = ∑ i : Fin l.length, (l[i]).toNat * 2 ^ (i.val * W) := by
  induction l with
  | nil => rfl
  | cons x xs ih =>
    have weight (i : Nat) : 2 ^ ((i + 1) * W) = 2 ^ W * 2 ^ (i * W) := by rw [← pow_add]; congr 1; ring
    simp [valLimbs, ih, Fin.sum_univ_succ, Finset.mul_sum, weight, mul_left_comm]

/-- R10: the value is the sum of the limbs by weight. -/
theorem val_eq_sum (a : UInt W L) : val a = ∑ i : Fin L, (a[i]).toNat * 2 ^ (i.val * W) := by
  obtain ⟨⟨l⟩, rfl⟩ := a
  exact valLimbs_eq_sum l

theorem toNat_limb_fromVal (v i : Nat) (h : i < L) :
    ((fromVal W L v)[i]).toNat = v / 2 ^ (i * W) % 2 ^ W := by
  rw [getElem_fromVal, BitVec.toNat_ofNat]

/-- R10: `from_val(v)` is the integer, and the only one, that has the value `v`. -/
theorem existsUnique_val_eq {v : Nat} (hv : v < 2 ^ (L * W)) : ∃! a : UInt W L, val a = v := by
  have h : val (fromVal W L v) = v := by rw [val_fromVal, Nat.mod_eq_of_lt hv]
  exact ⟨fromVal W L v, h, fun a ha => val_injective (ha.trans h.symm)⟩

theorem val_oneUInt (hW : 1 ≤ W) (hL : 1 ≤ L) : val (oneUInt W L) = 1 := by
  have one_lt_weight (i : Nat) (hi : 1 ≤ i) : 1 < 2 ^ (i * W) :=
    Nat.one_lt_two_pow (Nat.mul_ne_zero (by omega) (by omega))
  have h : oneUInt W L = fromVal W L 1 := Vector.ext fun i hi => by
    cases i with
    | zero => simp
    | succ i => simp [Nat.div_eq_of_lt (one_lt_weight (i + 1) (by omega))]
  rw [h, val_fromVal, Nat.mod_eq_of_lt (one_lt_weight L hL)]

/-- Every bit of MAX is set, as every bit of `2^TB - 1` is. -/
theorem val_maxUInt : val (maxUInt W L) = 2 ^ (L * W) - 1 := by
  rw [val_of_bits (maxUInt W L) (2 ^ (L * W) - 1), Nat.mod_eq_of_lt (Nat.sub_lt (Nat.two_pow_pos _) one_pos)]
  intro i hi j hj
  have hbit : j + i * W < L * W := by
    calc j + i * W < (i + 1) * W := by rw [Nat.succ_mul]; omega
      _ ≤ L * W := Nat.mul_le_mul_right W hi
  simp [Nat.testBit_two_pow_sub_one, hj, hbit]

/-- Settles O36: `from_val` gives existence, the limbs being the digits of the value gives uniqueness. -/
theorem valIsABijection : Obligations.ValIsABijection := by
  intro W L hW hL
  exact ⟨val_eq_sum, fun a => Nat.le_sub_one_of_lt (val_lt a), fun _ => existsUnique_val_eq,
    fun v _ i => toNat_limb_fromVal v i i.isLt, val_zeroUInt, val_oneUInt hW hL, val_maxUInt⟩

end Sys2Proof.Machine
end

section
/-! What a command can do to the block, said once for all commands (10_state.md R23 to R25, R30), and the flags and
pending moves after it. -/

namespace Sys2Proof.Machine

variable {c : Params} {b b' : Block c} {i : Instr}

/-! ## The shapes of the commands as updates of the block -/

theorem loadLimb_of_lt (b : Block c) (r : RegNum) {idx : Imm18} (h : idx.toNat < c.LIMBS) :
    loadLimb r idx b = (b.writeLimb r ⟨idx.toNat, h⟩ b.wdata).returns 0 := by
  rw [loadLimb, dif_pos h]

theorem loadLimb_of_not_lt (b : Block c) (r : RegNum) {idx : Imm18} (h : ¬ idx.toNat < c.LIMBS) :
    loadLimb r idx b = b.illegal := by
  rw [loadLimb, dif_neg h]

theorem storeLimb_some {r : RegNum} {idx : Imm18} {x : Word c.W} (h : idx.toNat < c.LIMBS)
    (hx : b.readLimb r ⟨idx.toNat, h⟩ = some x) : storeLimb r idx b = b.returns x := by
  simp only [storeLimb, dif_pos h, hx]

theorem storeLimb_none {r : RegNum} {idx : Imm18} (h : idx.toNat < c.LIMBS)
    (hx : b.readLimb r ⟨idx.toNat, h⟩ = none) :
    storeLimb r idx b = b.drawn.returns (Config.freeWord c.W b.draws) := by
  simp only [storeLimb, dif_pos h, hx]

theorem storeLimb_of_not_lt (b : Block c) (r : RegNum) {idx : Imm18} (h : ¬ idx.toNat < c.LIMBS) :
    storeLimb r idx b = b.illegal := by
  rw [storeLimb, dif_neg h]

theorem shiftOneCarry_some {rd rs1 : RegNum} {a : UInt c.W c.LIMBS} (h : b.readReg rs1 = some a) :
    shiftOneCarry rd rs1 b = ((b.writeReg rd (some (shiftLeftOneWithCarry a).1)).setCarry
      (shiftLeftOneWithCarry a).2).returns 0 := by
  simp only [shiftOneCarry, h]

theorem shiftOneCarry_none {rd rs1 : RegNum} (h : b.readReg rs1 = none) :
    shiftOneCarry rd rs1 b =
      ((b.drawn.writeReg rd none).setCarry (broadcast c.W (Config.freeChoice b.draws))).returns 0 := by
  simp only [shiftOneCarry, h]

theorem wideShift_self (b : Block c) (r : RegNum) (n : Imm18) : wideShift r r n b = b.illegal := by
  rw [wideShift, if_pos rfl]

theorem wideShift_some {rl rh : RegNum} {n : Imm18} {x y : UInt c.W c.LIMBS} (hne : rl ≠ rh)
    (hx : b.readReg rl = some x) (hy : b.readReg rh = some y) :
    wideShift rl rh n b = ((b.writeReg rl (some (shiftLeftVartimeWide x y n.toNat).1)).writeReg rh
      (some (shiftLeftVartimeWide x y n.toNat).2)).returns 0 := by
  simp only [wideShift, if_neg hne, hx, hy]

theorem wideShift_none {rl rh : RegNum} {n : Imm18} (hne : rl ≠ rh)
    (h : b.readReg rl = none ∨ b.readReg rh = none) :
    wideShift rl rh n b = ((b.writeReg rl none).writeReg rh none).returns 0 := by
  rcases h with h | h
  · simp only [wideShift, if_neg hne, h]
  · cases hl : b.readReg rl <;> simp only [wideShift, if_neg hne, hl, h]

theorem Block.binary_none {f : UInt c.W c.LIMBS → UInt c.W c.LIMBS → UInt c.W c.LIMBS} {rd rs1 rs2 : RegNum}
    (h : b.readReg rs1 = none ∨ b.readReg rs2 = none) :
    b.binary f rd rs1 rs2 = (b.writeReg rd none).returns 0 := by
  rcases h with h | h <;> simp [Block.binary, h]

theorem Block.unary_none {f : UInt c.W c.LIMBS → UInt c.W c.LIMBS} {rd rs1 : RegNum} (h : b.readReg rs1 = none) :
    b.unary f rd rs1 = (b.writeReg rd none).returns 0 := by
  simp [Block.unary, h]

/-! ## Inversion of `exec` -/

/-- The ways a command can change a block, for every command at once. A value that no frame fact depends on (a result, a
free value) is not fixed; `exec_effect` ties this to `exec`. -/
inductive Effect (b : Block c) : Instr → Block c → Prop where
  /-- operands outside R64's constraint (R190) -/
  | illegal {i : Instr} (hwf : i.wf c.LIMBS = false) : Effect b i b.illegal
  /-- LDL -/
  | load {idx : Imm18} (r : RegNum) (h : idx.toNat < c.LIMBS) :
      Effect b (.ldl r idx) ((b.writeLimb r ⟨idx.toNat, h⟩ b.wdata).returns 0)
  /-- STL of a specified limb, RDC, RDS -/
  | report {i : Instr} (x : Word c.W) (hwf : i.wf c.LIMBS = true) (hw : cellsWritten c.LIMBS i = [])
      (hf : isFlagged i = false) : Effect b i (b.returns x)
  /-- STL of an unspecified limb -/
  | reportFree {idx : Imm18} (r : RegNum) (x : Word c.W) (h : idx.toNat < c.LIMBS) :
      Effect b (.stl r idx) (b.drawn.returns x)
  /-- AND, SHL, SHR and their `.W` forms -/
  | plain {i : Instr} (rd : RegNum) (x : Option (UInt c.W c.LIMBS)) (hwf : i.wf c.LIMBS = true)
      (hw : cellsWritten c.LIMBS i = regCells c.LIMBS rd) (hf : isFlagged i = false) :
      Effect b i ((b.writeReg rd x).returns 0)
  /-- the `.F` forms -/
  | flagged {i : Instr} (rd : RegNum) (x : Option (UInt c.W c.LIMBS)) (hwf : i.wf c.LIMBS = true)
      (hw : cellsWritten c.LIMBS i = regCells c.LIMBS rd) (hf : isFlagged i = true) :
      Effect b i ((b.writeReg rd x).returns 0).setValid
  /-- SHL1C of a specified register -/
  | shiftOne (rd rs1 : RegNum) (x : Option (UInt c.W c.LIMBS)) (m : Choice) :
      Effect b (.shl1c rd rs1) (((b.writeReg rd x).setCarry (broadcast c.W m)).returns 0)
  /-- SHL1C of an unspecified register -/
  | shiftOneFree (rd rs1 : RegNum) (m : Choice) :
      Effect b (.shl1c rd rs1) (((b.drawn.writeReg rd none).setCarry (broadcast c.W m)).returns 0)
  /-- SHLW -/
  | wide {rl rh : RegNum} (n : Imm18) (x y : Option (UInt c.W c.LIMBS)) (hne : rl ≠ rh) :
      Effect b (.shlw rl rh n) (((b.writeReg rl x).writeReg rh y).returns 0)

theorem effect_loadLimb (b : Block c) (r : RegNum) (idx : Imm18) : Effect b (.ldl r idx) (loadLimb r idx b) := by
  by_cases h : idx.toNat < c.LIMBS
  · rw [loadLimb_of_lt b r h]
    exact .load r h
  · rw [loadLimb_of_not_lt b r h]
    exact .illegal (decide_eq_false h)

theorem effect_storeLimb (b : Block c) (r : RegNum) (idx : Imm18) : Effect b (.stl r idx) (storeLimb r idx b) := by
  by_cases h : idx.toNat < c.LIMBS
  · cases hx : b.readLimb r ⟨idx.toNat, h⟩ with
    | some x =>
      rw [storeLimb_some h hx]
      exact .report x (decide_eq_true h) rfl rfl
    | none =>
      rw [storeLimb_none h hx]
      exact .reportFree r _ h
  · rw [storeLimb_of_not_lt b r h]
    exact .illegal (decide_eq_false h)

theorem effect_shiftOneCarry (b : Block c) (rd rs1 : RegNum) :
    Effect b (.shl1c rd rs1) (shiftOneCarry rd rs1 b) := by
  cases hx : b.readReg rs1 with
  | some a =>
    rw [shiftOneCarry_some hx]
    exact .shiftOne rd rs1 _ _
  | none =>
    rw [shiftOneCarry_none hx]
    exact .shiftOneFree rd rs1 _

theorem effect_wideShift (b : Block c) (rl rh : RegNum) (n : Imm18) :
    Effect b (.shlw rl rh n) (wideShift rl rh n b) := by
  by_cases hne : rl = rh
  · subst hne
    rw [wideShift_self]
    exact .illegal (by simp [Instr.wf])
  · cases hx : b.readReg rl with
    | none =>
      rw [wideShift_none hne (.inl hx)]
      exact .wide n _ _ hne
    | some x =>
      cases hy : b.readReg rh with
      | none =>
        rw [wideShift_none hne (.inr hy)]
        exact .wide n _ _ hne
      | some y =>
        rw [wideShift_some hne hx hy]
        exact .wide n _ _ hne

/-- Every next state of a command is one of the listed effects. -/
theorem exec_effect (h : exec i ⟨c, b⟩ = .next ⟨c, b'⟩) : Effect b i b' := by
  cases i with
  | ldl r idx => cases h; exact effect_loadLimb b r idx
  | stl r idx => cases h; exact effect_storeLimb b r idx
  | rdc | rds => cases h; exact .report _ rfl rfl rfl
  | and rd | andW rd | shl rd | shlW rd | shr rd | shrW rd => cases h; exact .plain rd _ rfl rfl rfl
  | andF rd | shlF rd | shrF rd => cases h; exact .flagged rd _ rfl rfl rfl
  | shl1c rd rs1 => cases h; exact effect_shiftOneCarry b rd rs1
  | shlw rl rh n => cases h; exact effect_wideShift b rl rh n

/-! ## Flags and pending moves after a command -/

/-- The flagged forms have no constraint to break (R64). -/
theorem isFlagged_of_not_wf {L : Nat} (h : i.wf L = false) : isFlagged i = false := by
  cases i with
  | andF | shlF | shrF => cases h
  | _ => rfl

/-- R190: a command sets `err` exactly when its operands break R64's constraint. -/
theorem exec_err (h : exec i ⟨c, b⟩ = .next ⟨c, b'⟩) : b'.err = (b.err || !i.wf c.LIMBS) := by
  cases exec_effect h with
  | illegal hwf | report _ hwf | plain _ _ hwf | flagged _ _ hwf => simp [hwf]
  | load _ hlt | reportFree _ _ hlt => simp [Instr.wf, hlt]
  | wide _ _ _ hne => simp [Instr.wf, hne]
  | shiftOne | shiftOneFree => simp [Instr.wf]

/-- R24, R173: a command sets `valid` exactly when it is a flagged form. -/
theorem exec_valid (h : exec i ⟨c, b⟩ = .next ⟨c, b'⟩) : b'.valid = (b.valid || isFlagged i) := by
  cases exec_effect h with
  | illegal hwf => simp [isFlagged_of_not_wf hwf]
  | report _ _ _ hf | plain _ _ _ _ hf | flagged _ _ _ _ hf => simp [hf]
  | load | reportFree | wide | shiftOne | shiftOneFree => simp [isFlagged]

/-- A command leaves the host's later moves to come (R207). -/
theorem exec_pending (h : exec i ⟨c, b⟩ = .next ⟨c, b'⟩) : b'.pending = b.pending := by
  cases exec_effect h <;> rfl

/-- R23, R134: `carry` after a command. -/
theorem exec_carry (h : exec i ⟨c, b⟩ = .next ⟨c, b'⟩) (hi : ∀ rd rs1, i ≠ .shl1c rd rs1) : b'.carry = b.carry := by
  cases exec_effect h with
  | shiftOne rd rs1 | shiftOneFree rd rs1 => exact absurd rfl (hi rd rs1)
  | illegal | load | report | reportFree | plain | flagged | wide => rfl

/-- Settles O14: of the effects of a command only the two of SHL1C write `carry`. -/
theorem onlyShl1cWritesCarry : Obligations.OnlyShl1cWritesCarry :=
  fun _ _ _ _ => exec_carry

/-- Settles O15: the forms the statement lists are those `isFlagged` names. -/
theorem onlyFlaggedFormsWriteValid : Obligations.OnlyFlaggedFormsWriteValid := by
  intro c b b' i h
  rw [exec_valid h]
  cases i <;> rfl

end Sys2Proof.Machine
end

section
/-! Steps, and runs of issued commands (10_state.md R24, R25, 60_exceptions.md R190, R197): one step, then induction over
the list of commands. -/

namespace Sys2Proof.Machine

variable {c : Params} {b : Block c}

/-- A word that decodes to a command meets the command's constraint (R65 (3)). -/
theorem wf_of_decode {L : Nat} {w : CmdWord} {i : Instr} (h : decode L w = .ok i) : i.wf L = true := by
  unfold decode at h
  cases hr : rowOf w with
  | none => simp [hr] at h
  | some r =>
    by_cases hwf : (r.make w).wf L = true
    · simp only [hr, if_pos hwf] at h
      cases h
      exact hwf
    · simp [hr, hwf] at h

theorem step_issue_command {cmd : Command c.W} {rest : List (HostMove c.W)} {i : Instr}
    (h : b.pending = .issue cmd :: rest) (hd : decode c.LIMBS cmd.word = .ok i) :
    step ⟨c, b⟩ = exec i ⟨c, b.accept cmd rest⟩ := by
  simp only [step, h, hd]

/-- What a step can be: idle, a reset, an illegal word, a command. -/
theorem step_cases {t : State} (h : step ⟨c, b⟩ = .next t) :
    (b.pending = [] ∧ t = ⟨c, b⟩) ∨
    (∃ rest, b.pending = .reset :: rest ∧ t = ⟨c, Block.hostReset { b with pending := rest }⟩) ∨
    (∃ cmd rest e, b.pending = .issue cmd :: rest ∧ decode c.LIMBS cmd.word = .error e ∧
      t = ⟨c, (b.accept cmd rest).illegal⟩) ∨
    (∃ cmd rest i b', b.pending = .issue cmd :: rest ∧ decode c.LIMBS cmd.word = .ok i ∧
      exec i ⟨c, b.accept cmd rest⟩ = .next ⟨c, b'⟩ ∧ t = ⟨c, b'⟩) := by
  match hp : b.pending with
  | [] =>
    rw [step_idle b hp] at h
    cases h
    exact .inl ⟨rfl, rfl⟩
  | .reset :: rest =>
    rw [step_reset b hp] at h
    cases h
    exact .inr (.inl ⟨rest, rfl, rfl⟩)
  | .issue cmd :: rest =>
    cases hd : decode c.LIMBS cmd.word with
    | error e =>
      rw [step_issue_illegal b hp hd] at h
      cases h
      exact .inr (.inr (.inl ⟨cmd, rest, e, rfl, hd, rfl⟩))
    | ok i =>
      obtain ⟨b', hb'⟩ := exec_next (b.accept cmd rest) i
      rw [step_issue_command hp hd, hb'] at h
      cases h
      exact .inr (.inr (.inr ⟨cmd, rest, i, b', rfl, hd, hb', rfl⟩))

/-- One issued word: what `err` and `valid` tell after its step. -/
theorem step_issue_flags {cmd : Command c.W} {rest : List (HostMove c.W)} (h : b.pending = .issue cmd :: rest) :
    ∃ b' : Block c, step ⟨c, b⟩ = .next ⟨c, b'⟩ ∧ b'.pending = rest ∧
      (b'.err = true ↔ b.err = true ∨ ∃ e, decode c.LIMBS cmd.word = .error e) ∧
      (b'.valid = true ↔ b.valid = true ∨ ∃ i, decode c.LIMBS cmd.word = .ok i ∧ isFlagged i = true) := by
  cases hd : decode c.LIMBS cmd.word with
  | error e => exact ⟨_, step_issue_illegal b h hd, rfl, by simp, by simp⟩
  | ok i =>
    obtain ⟨b', hb'⟩ := exec_next (b.accept cmd rest) i
    refine ⟨b', (step_issue_command h hd).trans hb', exec_pending hb', ?_, ?_⟩
    · simp [exec_err hb', wf_of_decode hd]
    · simp [exec_valid hb']

/-- Settles O16, by induction on the list of commands, for every block to start from. -/
theorem runFlagsTellWhatWasIssued : Obligations.RunFlagsTellWhatWasIssued := by
  intro c b cmds rest
  induction cmds generalizing b with
  | nil => exact fun h => ⟨b, rfl, h, by simp, by simp⟩
  | cons cmd cmds ih =>
    intro h
    obtain ⟨b₁, hstep, hpending, herr₁, hvalid₁⟩ := step_issue_flags h
    obtain ⟨b', hrun, hrest, herr, hvalid⟩ := ih b₁ hpending
    refine ⟨b', (run_succ _ hstep).trans hrun, hrest, ?_, ?_⟩
    · rw [herr, herr₁, List.exists_mem_cons_iff, or_assoc]
    · rw [hvalid, hvalid₁, List.exists_mem_cons_iff, or_assoc]

end Sys2Proof.Machine
end

section
/-! The invariant of the block (10_state.md R23; log 2): each update keeps it, so each command and each step does. -/

namespace Sys2Proof.Machine

variable {c : Params} {b b' : Block c}

/-- The invariant speaks of `carry` and of the registers only. -/
theorem Block.Inv.congr (hb : b.Inv) (hcarry : b'.carry = b.carry) (hu : b'.u = b.u) : b'.Inv := by
  unfold Block.Inv Block.cell at *
  rwa [hcarry, hu]

theorem Block.Inv.setCarry (hb : b.Inv) (m : Choice) : (b.setCarry (broadcast c.W m)).Inv :=
  ⟨broadcast_cases m, hb.2⟩

/-- Every limb of a register written whole is specified, or holds the word of an unwritten limb. -/
theorem BigReg.unwritten_ofValue {W L : Nat} (x : Option (UInt W L)) (k : Fin L)
    (h : (BigReg.ofValue x)[k].written = false) : (BigReg.ofValue x)[k] = LimbCell.unwritten W := by
  cases x with
  | some a => simp [BigReg.ofValue] at h
  | none => exact BigReg.ofValue_none k.val k.isLt

theorem Block.Inv.writeReg (hb : b.Inv) (r : RegNum) (x : Option (UInt c.W c.LIMBS)) : (b.writeReg r x).Inv := by
  obtain ⟨hcarry, hcells⟩ := hb
  refine ⟨hcarry, fun q k => ?_⟩
  rw [Block.cell_writeReg]
  split
  · exact BigReg.unwritten_ofValue x k
  · exact hcells q k

theorem Block.Inv.writeLimb (hb : b.Inv) (r : RegNum) (j : Fin c.LIMBS) (x : Word c.W) : (b.writeLimb r j x).Inv := by
  obtain ⟨hcarry, hcells⟩ := hb
  refine ⟨hcarry, fun q k => ?_⟩
  rw [Block.cell_writeLimb]
  split
  · exact nofun
  · exact hcells q k

/-- After reset `carry` is 0 and no limb is written (R31). -/
theorem Block.inv_afterReset (c : Params) : (Block.afterReset c).Inv :=
  ⟨.inl rfl, fun r k _ => Block.cell_afterReset r k⟩

theorem exec_keeps_inv {i : Instr} (hb : b.Inv) (h : exec i ⟨c, b⟩ = .next ⟨c, b'⟩) : b'.Inv := by
  cases exec_effect h with
  | illegal | report | reportFree => exact hb.congr rfl rfl
  | load r hlt => exact (hb.writeLimb r _ _).congr rfl rfl
  | plain rd x | flagged rd x => exact (hb.writeReg rd x).congr rfl rfl
  | shiftOne rd _ x m => exact ((hb.writeReg rd x).setCarry m).congr rfl rfl
  | shiftOneFree rd _ m => exact ((hb.writeReg rd none).setCarry m).congr rfl rfl
  | wide n x y => exact ((hb.writeReg _ x).writeReg _ y).congr rfl rfl

theorem step_keeps_inv {t : State} (hb : b.Inv) (h : step ⟨c, b⟩ = .next t) : t.Inv := by
  rcases step_cases h with ⟨_, rfl⟩ | ⟨_, _, rfl⟩ | ⟨_, _, _, _, _, rfl⟩ | ⟨cmd, rest, i, b', _, _, hexec, rfl⟩
  · exact hb
  · exact (Block.inv_afterReset c).congr rfl rfl
  · exact hb.congr rfl rfl
  · have haccept : (b.accept cmd rest).Inv := hb.congr rfl rfl
    exact exec_keeps_inv haccept hexec

/-- Settles O13: every kind of step keeps the invariant. -/
theorem stepKeepsTheInvariant : Obligations.StepKeepsTheInvariant :=
  fun _ _ => step_keeps_inv

/-- Settles O12. -/
theorem resetMeetsTheInvariant : Obligations.ResetMeetsTheInvariant := Block.inv_afterReset

/-- Settles O8: the flags are R31's, and no cell is written. -/
theorem resetLeavesFlagsClearAndLimbsUnspecified : Obligations.ResetLeavesFlagsClearAndLimbsUnspecified := by
  intro c
  refine ⟨rfl, rfl, rfl, fun r k => ?_⟩
  have hcell : (State.resetOf c).blk.cell r k = LimbCell.unwritten c.W := Block.cell_afterReset r k
  rw [Block.readLimb_eq_none, hcell]
  rfl

end Sys2Proof.Machine
end

section
/-! Operation commands on unspecified sources (10_state.md R32; log 3). -/

namespace Sys2Proof.Machine

variable {c : Params} {b b' : Block c} {i : Instr}

/-- A write of a register leaves the cells of every other register. -/
theorem Block.cell_writeReg_other (b : Block c) {r q : RegNum} (x : Option (UInt c.W c.LIMBS)) (h : q ≠ r)
    (k : Fin c.LIMBS) : (b.writeReg r x).cell q k = b.cell q k :=
  Block.cell_congr (b.writeReg_other x h) k

theorem Block.keepsBut_writeReg (b : Block c) (r : RegNum) (x : Option (UInt c.W c.LIMBS)) :
    b.KeepsBut (b.writeReg r x) [r] :=
  ⟨fun q hq => b.writeReg_other x (by simpa using hq), rfl, rfl, rfl⟩

theorem Block.keepsBut_writeReg_writeReg (b : Block c) (r s : RegNum) (x y : Option (UInt c.W c.LIMBS)) :
    b.KeepsBut ((b.writeReg r x).writeReg s y) [r, s] := by
  refine ⟨fun q hq => ?_, rfl, rfl, rfl⟩
  obtain ⟨hr, hs⟩ : q ≠ r ∧ q ≠ s := by simpa using hq
  rw [Block.writeReg_other _ y hs, Block.writeReg_other _ x hr]

/-- A later write of another register leaves a register unspecified. -/
theorem Block.unspecified_writeReg_other {r s : RegNum} (x : Option (UInt c.W c.LIMBS)) (h : b.Unspecified r)
    (hne : r ≠ s) : (b.writeReg s x).Unspecified r :=
  fun k => (Block.readLimb_congr (b.cell_writeReg_other x hne k)).trans (h k)

/-- What R32 says of a command with one destination and an unspecified source: it completes, no limb of `u[rd]` has a
value, `valid` is `v`, and nothing else changes. -/
def SpreadsTo (b : Block c) (i : Instr) (rd : RegNum) (v : Choice) : Prop :=
  ∃ b' : Block c, exec i ⟨c, b⟩ = .next ⟨c, b'⟩ ∧ b'.Unspecified rd ∧ b'.valid = v ∧ b'.carry = b.carry ∧
    b'.rdata = 0 ∧ b.KeepsBut b' [rd]

theorem spreadsTo_plain {rd : RegNum} (h : exec i ⟨c, b⟩ = .next ⟨c, (b.writeReg rd none).returns 0⟩) :
    SpreadsTo b i rd b.valid :=
  ⟨_, h, b.readLimb_writeReg_none rd, rfl, rfl, rfl, b.keepsBut_writeReg rd none⟩

theorem spreadsTo_flagged {rd : RegNum} (h : exec i ⟨c, b⟩ = .next ⟨c, ((b.writeReg rd none).returns 0).setValid⟩) :
    SpreadsTo b i rd true :=
  ⟨_, h, b.readLimb_writeReg_none rd, rfl, rfl, rfl, b.keepsBut_writeReg rd none⟩

theorem and_forms_spread {rs1 rs2 : RegNum} (rd : RegNum) (h : b.readReg rs1 = none ∨ b.readReg rs2 = none) :
    ∀ p ∈ [(Instr.and rd rs1 rs2, b.valid), (.andW rd rs1 rs2, b.valid), (.andF rd rs1 rs2, true)],
      SpreadsTo b p.1 rd p.2 := by
  simp only [List.forall_mem_cons, List.not_mem_nil, false_implies, implies_true, and_true]
  exact ⟨spreadsTo_plain (by rw [exec_and, Block.binary_none h]), spreadsTo_plain (by rw [exec_andW, Block.binary_none h]),
    spreadsTo_flagged (by rw [exec_andF, Block.binary_none h])⟩

theorem shift_forms_spread {rs1 : RegNum} (rd : RegNum) (n : Imm18) (h : b.readReg rs1 = none) :
    ∀ p ∈ [(Instr.shl rd rs1 n, b.valid), (.shlW rd rs1 n, b.valid), (.shlF rd rs1 n, true),
        (.shr rd rs1 n, b.valid), (.shrW rd rs1 n, b.valid), (.shrF rd rs1 n, true)], SpreadsTo b p.1 rd p.2 := by
  simp only [List.forall_mem_cons, List.not_mem_nil, false_implies, implies_true, and_true]
  exact ⟨spreadsTo_plain (by rw [exec_shl, Block.unary_none h]), spreadsTo_plain (by rw [exec_shlW, Block.unary_none h]),
    spreadsTo_flagged (by rw [exec_shlF, Block.unary_none h]), spreadsTo_plain (by rw [exec_shr, Block.unary_none h]),
    spreadsTo_plain (by rw [exec_shrW, Block.unary_none h]), spreadsTo_flagged (by rw [exec_shrF, Block.unary_none h])⟩

/-- Settles O28: AND, SHL and SHR forms by `SpreadsTo`; SHL1C draws its carry mask; SHLW writes both halves. -/
theorem unspecifiedSourceSpreadsToDestination : Obligations.UnspecifiedSourceSpreadsToDestination := by
  intro c b rd rs1 rs2 n
  refine ⟨and_forms_spread rd, fun h => ⟨shift_forms_spread rd n h, ?_⟩, fun h hne => ?_⟩
  · have hexec := exec_shl1c b rd rs1
    rw [shiftOneCarry_none h] at hexec
    exact ⟨_, hexec, b.drawn.readLimb_writeReg_none rd, rfl, broadcast_cases _, rfl, b.drawn.keepsBut_writeReg rd none⟩
  · have hexec := exec_shlw b rs1 rs2 n
    rw [wideShift_none hne h] at hexec
    have hfirst : (b.writeReg rs1 none).Unspecified rs1 := b.readLimb_writeReg_none rs1
    exact ⟨_, hexec, Block.unspecified_writeReg_other none hfirst hne,
      (b.writeReg rs1 none).readLimb_writeReg_none rs2, ⟨rfl, rfl⟩, rfl,
      b.keepsBut_writeReg_writeReg rs1 rs2 none none⟩

end Sys2Proof.Machine
end

section
/-! The limbs a command is declared to read and write are those it does (10_state.md R30, 20_memory.md R42; log 15). -/

namespace Sys2Proof.Machine

variable {c : Params} {a b a' b' : Block c} {i : Instr}

theorem mem_regCells {L : Nat} {r q : RegNum} (k : Fin L) : (⟨r, k.val⟩ : CellRef) ∈ regCells L q ↔ r = q := by
  simp [regCells, eq_comm]

/-- Settles O34: each effect's updates leave the other cells alone. -/
theorem commandsWriteOnlyDeclaredLimbs : Obligations.CommandsWriteOnlyDeclaredLimbs := by
  intro c b b' i r k h hnot
  cases exec_effect h with
  | illegal | report | reportFree => rfl
  | load q hlt =>
    have hne : ¬ (q = r ∧ ⟨_, hlt⟩ = k) := by
      rintro ⟨rfl, rfl⟩
      exact hnot (by simp [cellsWritten, hlt])
    exact (b.cell_writeLimb q r _ k _).trans (if_neg hne)
  | plain rd x _ hw | flagged rd x _ hw =>
    rw [hw, mem_regCells] at hnot
    exact b.cell_writeReg_other x hnot k
  | shiftOne rd _ x => exact b.cell_writeReg_other x (mt (mem_regCells k).2 hnot) k
  | shiftOneFree rd => exact b.drawn.cell_writeReg_other none (mt (mem_regCells k).2 hnot) k
  | @wide rl rh n x y hlh =>
    simp only [cellsWritten, if_neg hlh, List.mem_append, mem_regCells, not_or] at hnot
    obtain ⟨hl, hh⟩ := hnot
    calc (((b.writeReg rl x).writeReg rh y).returns 0).cell r k
      _ = (b.writeReg rl x).cell r k := Block.cell_writeReg_other _ y hh k
      _ = b.cell r k := b.cell_writeReg_other x hl k

/-- A read of a register depends on its cells only. -/
theorem Block.readReg_congr_cell {r : RegNum} (h : ∀ k, a.cell r k = b.cell r k) : a.readReg r = b.readReg r := by
  simp only [Block.readReg, h]

/-- An illegal command is declared to write no limb. -/
theorem cellsWritten_of_not_wf {L : Nat} (h : i.wf L = false) : cellsWritten L i = [] := by
  cases i with
  | ldl r idx => exact if_neg (of_decide_eq_false h)
  | shlw rl rh n => exact if_pos (of_not_not (of_decide_eq_false h))
  | stl => rfl
  | _ => cases h

/-- Everything a command may look at is the same in both blocks: the limbs declared, the flags, the data word and the free
value to come. -/
structure SameInputs (i : Instr) (a b : Block c) : Prop where
  cell : ∀ (r : RegNum) (k : Fin c.LIMBS), (⟨r, k.val⟩ : CellRef) ∈ cellsRead c.LIMBS i → a.cell r k = b.cell r k
  carry : a.carry = b.carry
  valid : a.valid = b.valid
  err : a.err = b.err
  wdata : a.wdata = b.wdata
  draws : a.draws = b.draws

/-- The blocks `a'` and `b'` show the same result of a command, beside the flags that do not depend on limbs. -/
def SameResult (i : Instr) (a' b' : Block c) : Prop :=
  (∀ (r : RegNum) (k : Fin c.LIMBS), (⟨r, k.val⟩ : CellRef) ∈ cellsWritten c.LIMBS i → a'.cell r k = b'.cell r k) ∧
    a'.carry = b'.carry ∧ a'.rdata = b'.rdata

theorem SameInputs.readReg (h : SameInputs i a b) {r : RegNum}
    (hr : ∀ k : Fin c.LIMBS, (⟨r, k.val⟩ : CellRef) ∈ cellsRead c.LIMBS i) : a.readReg r = b.readReg r :=
  Block.readReg_congr_cell fun k => h.cell r k (hr k)

theorem SameInputs.status (h : SameInputs i a b) : a.status = b.status := by
  simp only [Block.status, h.carry, h.valid, h.err]

theorem sameResult_of_no_write (hw : cellsWritten c.LIMBS i = []) (hcarry : a'.carry = b'.carry)
    (hrdata : a'.rdata = b'.rdata) : SameResult i a' b' :=
  ⟨fun r k hk => absurd hk (by simp [hw]), hcarry, hrdata⟩

theorem sameResult_illegal (hwf : i.wf c.LIMBS = false) (hcarry : a.carry = b.carry) :
    SameResult i a.illegal b.illegal :=
  sameResult_of_no_write (cellsWritten_of_not_wf hwf) hcarry rfl

/-- Writing one value to one register gives the same cells in both blocks. -/
theorem cell_writeReg_same (r : RegNum) {x y : Option (UInt c.W c.LIMBS)} (hxy : x = y) (k : Fin c.LIMBS) :
    (a.writeReg r x).cell r k = (b.writeReg r y).cell r k := by
  rw [Block.cell_writeReg, Block.cell_writeReg, if_pos rfl, if_pos rfl, hxy]

theorem sameResult_writeReg {rd : RegNum} {x y : Option (UInt c.W c.LIMBS)}
    (hw : cellsWritten c.LIMBS i = regCells c.LIMBS rd) (hcarry : a.carry = b.carry) (hxy : x = y) :
    SameResult i ((a.writeReg rd x).returns 0) ((b.writeReg rd y).returns 0) := by
  refine ⟨fun r k hk => ?_, hcarry, rfl⟩
  rw [hw, mem_regCells] at hk
  subst hk
  exact cell_writeReg_same r hxy k

theorem sameResult_loadLimb {r : RegNum} {idx : Imm18} (h : SameInputs (.ldl r idx) a b) :
    SameResult (.ldl r idx) (loadLimb r idx a) (loadLimb r idx b) := by
  by_cases hlt : idx.toNat < c.LIMBS
  · rw [loadLimb_of_lt a r hlt, loadLimb_of_lt b r hlt]
    refine ⟨fun q k hk => ?_, h.carry, rfl⟩
    simp only [cellsWritten, if_pos hlt, List.mem_singleton, CellRef.mk.injEq] at hk
    obtain ⟨rfl, hk⟩ := hk
    have hcell (d : Block c) : (d.writeLimb q ⟨idx.toNat, hlt⟩ d.wdata).cell q k = ⟨d.wdata, true⟩ :=
      (d.cell_writeLimb q q _ k _).trans (if_pos ⟨rfl, Fin.ext hk.symm⟩)
    exact (hcell a).trans (h.wdata ▸ (hcell b).symm)
  · rw [loadLimb_of_not_lt a r hlt, loadLimb_of_not_lt b r hlt]
    exact sameResult_illegal (decide_eq_false hlt) h.carry

theorem sameResult_storeLimb {r : RegNum} {idx : Imm18} (h : SameInputs (.stl r idx) a b) :
    SameResult (.stl r idx) (storeLimb r idx a) (storeLimb r idx b) := by
  by_cases hlt : idx.toNat < c.LIMBS
  · have hread : a.readLimb r ⟨idx.toNat, hlt⟩ = b.readLimb r ⟨idx.toNat, hlt⟩ :=
      Block.readLimb_congr (h.cell r ⟨idx.toNat, hlt⟩ (by simp [cellsRead, hlt]))
    cases hx : b.readLimb r ⟨idx.toNat, hlt⟩ with
    | some x =>
      rw [storeLimb_some hlt hx, storeLimb_some hlt (hread.trans hx)]
      exact sameResult_of_no_write rfl h.carry rfl
    | none =>
      rw [storeLimb_none hlt hx, storeLimb_none hlt (hread.trans hx)]
      exact sameResult_of_no_write rfl h.carry (congrArg (Config.freeWord c.W) h.draws)
  · rw [storeLimb_of_not_lt a r hlt, storeLimb_of_not_lt b r hlt]
    exact sameResult_illegal (decide_eq_false hlt) h.carry

theorem sameResult_shiftOneCarry {rd rs1 : RegNum} (h : SameInputs (.shl1c rd rs1) a b) :
    SameResult (.shl1c rd rs1) (shiftOneCarry rd rs1 a) (shiftOneCarry rd rs1 b) := by
  have hread : a.readReg rs1 = b.readReg rs1 := h.readReg fun k => (mem_regCells k).2 rfl
  cases hx : b.readReg rs1 with
  | some x =>
    rw [shiftOneCarry_some hx, shiftOneCarry_some (hread.trans hx)]
    obtain ⟨hcells, -, -⟩ := sameResult_writeReg (i := .shl1c rd rs1) rfl h.carry (rfl : some _ = some _)
    exact ⟨hcells, rfl, rfl⟩
  | none =>
    rw [shiftOneCarry_none hx, shiftOneCarry_none (hread.trans hx), h.draws]
    obtain ⟨hcells, -, -⟩ := sameResult_writeReg (a := a.drawn) (b := b.drawn) (i := .shl1c rd rs1) rfl h.carry
      (rfl : none = none)
    exact ⟨hcells, rfl, rfl⟩

/-- Writing the same two values to the same two registers gives the same result of SHLW. -/
theorem sameResult_writeReg_writeReg {rl rh : RegNum} (n : Imm18) (x y : Option (UInt c.W c.LIMBS)) (hne : rl ≠ rh)
    (hcarry : a.carry = b.carry) :
    SameResult (.shlw rl rh n) (((a.writeReg rl x).writeReg rh y).returns 0)
      (((b.writeReg rl x).writeReg rh y).returns 0) := by
  refine ⟨fun r k hk => ?_, hcarry, rfl⟩
  simp only [cellsWritten, if_neg hne, List.mem_append, mem_regCells] at hk
  rcases hk with rfl | rfl
  · calc ((a.writeReg r x).writeReg rh y).cell r k
      _ = (a.writeReg r x).cell r k := Block.cell_writeReg_other _ y hne k
      _ = (b.writeReg r x).cell r k := cell_writeReg_same r rfl k
      _ = ((b.writeReg r x).writeReg rh y).cell r k := (Block.cell_writeReg_other _ y hne k).symm
  · exact cell_writeReg_same r rfl k

theorem sameResult_wideShift {rl rh : RegNum} {n : Imm18} (h : SameInputs (.shlw rl rh n) a b) :
    SameResult (.shlw rl rh n) (wideShift rl rh n a) (wideShift rl rh n b) := by
  by_cases hne : rl = rh
  · subst hne
    rw [wideShift_self, wideShift_self]
    exact sameResult_illegal (by simp [Instr.wf]) h.carry
  · have hl : a.readReg rl = b.readReg rl := h.readReg fun k => by simp [cellsRead, hne, mem_regCells]
    have hh : a.readReg rh = b.readReg rh := h.readReg fun k => by simp [cellsRead, hne, mem_regCells]
    cases hx : b.readReg rl with
    | none =>
      rw [wideShift_none hne (.inl hx), wideShift_none hne (.inl (hl.trans hx))]
      exact sameResult_writeReg_writeReg n none none hne h.carry
    | some x =>
      cases hy : b.readReg rh with
      | none =>
        rw [wideShift_none hne (.inr hy), wideShift_none hne (.inr (hh.trans hy))]
        exact sameResult_writeReg_writeReg n none none hne h.carry
      | some y =>
        rw [wideShift_some hne hx hy, wideShift_some hne (hl.trans hx) (hh.trans hy)]
        exact sameResult_writeReg_writeReg n _ _ hne h.carry

/-- The value AND and its forms write is the same from both blocks. -/
theorem sameResult_binary {f : UInt c.W c.LIMBS → UInt c.W c.LIMBS → UInt c.W c.LIMBS} {rd rs1 rs2 : RegNum}
    (h : SameInputs i a b) (hr : cellsRead c.LIMBS i = regCells c.LIMBS rs1 ++ regCells c.LIMBS rs2)
    (hw : cellsWritten c.LIMBS i = regCells c.LIMBS rd) :
    SameResult i (a.binary f rd rs1 rs2) (b.binary f rd rs1 rs2) := by
  have h1 : a.readReg rs1 = b.readReg rs1 := h.readReg fun k => by simp [hr, mem_regCells]
  have h2 : a.readReg rs2 = b.readReg rs2 := h.readReg fun k => by simp [hr, mem_regCells]
  exact sameResult_writeReg hw h.carry (by rw [h1, h2])

/-- The value SHL, SHR and their forms write is the same from both blocks. -/
theorem sameResult_unary {f : UInt c.W c.LIMBS → UInt c.W c.LIMBS} {rd rs1 : RegNum}
    (h : SameInputs i a b) (hr : cellsRead c.LIMBS i = regCells c.LIMBS rs1)
    (hw : cellsWritten c.LIMBS i = regCells c.LIMBS rd) :
    SameResult i (a.unary f rd rs1) (b.unary f rd rs1) := by
  have h1 : a.readReg rs1 = b.readReg rs1 := h.readReg fun k => by simp [hr, mem_regCells]
  exact sameResult_writeReg hw h.carry (by rw [h1])

theorem exec_sameResult (h : SameInputs i a b) (ha : exec i ⟨c, a⟩ = .next ⟨c, a'⟩)
    (hb : exec i ⟨c, b⟩ = .next ⟨c, b'⟩) : SameResult i a' b' := by
  cases i with
  | ldl r idx => cases ha; cases hb; exact sameResult_loadLimb h
  | stl r idx => cases ha; cases hb; exact sameResult_storeLimb h
  | rdc => cases ha; cases hb; exact sameResult_of_no_write rfl h.carry h.carry
  | rds => cases ha; cases hb; exact sameResult_of_no_write rfl h.carry h.status
  | and rd rs1 rs2 | andW rd rs1 rs2 | andF rd rs1 rs2 =>
    cases ha; cases hb; exact sameResult_binary (f := bitand) (rs1 := rs1) (rs2 := rs2) h rfl rfl
  | shl rd rs1 n | shlW rd rs1 n | shlF rd rs1 n =>
    cases ha; cases hb; exact sameResult_unary (f := fun x => shiftLeftVartime x n.toNat) (rs1 := rs1) h rfl rfl
  | shr rd rs1 n | shrW rd rs1 n | shrF rd rs1 n =>
    cases ha; cases hb; exact sameResult_unary (f := fun x => shiftRightVartime x n.toNat) (rs1 := rs1) h rfl rfl
  | shl1c rd rs1 => cases ha; cases hb; exact sameResult_shiftOneCarry h
  | shlw rl rh n => cases ha; cases hb; exact sameResult_wideShift h

/-- Settles O35: cells, `carry` and `rdata` by `exec_sameResult`; `valid` and `err` depend on no limb. -/
theorem commandsReadOnlyDeclaredLimbs : Obligations.CommandsReadOnlyDeclaredLimbs := by
  intro c a b a' b' i hcell hcarry hvalid herr hwdata hdraws ha hb
  obtain ⟨hcells', hcarry', hrdata'⟩ := exec_sameResult ⟨hcell, hcarry, hvalid, herr, hwdata, hdraws⟩ ha hb
  exact ⟨hcells', hcarry', by rw [exec_valid ha, exec_valid hb, hvalid], by rw [exec_err ha, exec_err hb, herr], hrdata'⟩

end Sys2Proof.Machine
end

section
/-! Repeating a limb transfer or a read of the flags (20_memory.md R46). -/

namespace Sys2Proof.Machine

variable {c : Params} {b : Block c}

/-- The later of two writes to one limb is the one that stands. -/
theorem Block.writeLimb_writeLimb_same (b : Block c) (r : RegNum) (j : Fin c.LIMBS) (x y : Word c.W) :
    (b.writeLimb r j x).writeLimb r j y = b.writeLimb r j y := by
  simp [Block.writeLimb]

theorem loadLimb_idempotent (r : RegNum) (idx : Imm18) (b : Block c) :
    loadLimb r idx (loadLimb r idx b) = loadLimb r idx b := by
  by_cases h : idx.toNat < c.LIMBS
  · have write_once := b.writeLimb_writeLimb_same r ⟨idx.toNat, h⟩ b.wdata b.wdata
    simp only [loadLimb_of_lt _ r h]
    calc (((b.writeLimb r ⟨idx.toNat, h⟩ b.wdata).returns 0).writeLimb r ⟨idx.toNat, h⟩ b.wdata).returns 0
      _ = ((b.writeLimb r ⟨idx.toNat, h⟩ b.wdata).writeLimb r ⟨idx.toNat, h⟩ b.wdata).returns 0 := rfl
      _ = (b.writeLimb r ⟨idx.toNat, h⟩ b.wdata).returns 0 := by rw [write_once]
  · simp only [loadLimb_of_not_lt _ r h]
    rfl

/-- R46 for STL: the limb is still there to be returned. Of an unspecified limb this fails, as each read draws anew. -/
theorem storeLimb_idempotent {r : RegNum} {idx : Imm18} (h : idx.toNat < c.LIMBS)
    (hspec : b.readLimb r ⟨idx.toNat, h⟩ ≠ none) : storeLimb r idx (storeLimb r idx b) = storeLimb r idx b := by
  obtain ⟨x, hx⟩ := Option.ne_none_iff_exists'.1 hspec
  have hx' : (b.returns x).readLimb r ⟨idx.toNat, h⟩ = some x := hx
  rw [storeLimb_some h hx, storeLimb_some h hx']
  rfl

/-- A command that computes an idempotent update may be repeated from the block it left. -/
theorem exec_repeat {b' : Block c} {i : Instr} {f : Block c → Block c} (hexec : ∀ d, exec i ⟨c, d⟩ = .next ⟨c, f d⟩)
    (hf : f (f b) = f b) (h : exec i ⟨c, b⟩ = .next ⟨c, b'⟩) : exec i ⟨c, b'⟩ = .next ⟨c, b'⟩ := by
  obtain rfl : f b = b' := by simpa [hexec] using h
  rw [hexec, hf]

/-- Settles O30: LDL and STL repeat because their updates are idempotent; RDC and RDS write `rdata`, which neither `carry`
nor STATUS depends on. -/
theorem repeatingTransfersChangesNothing : Obligations.RepeatingTransfersChangesNothing := by
  intro c b b' r idx
  refine ⟨exec_repeat (fun d => exec_ldl d r idx) (loadLimb_idempotent r idx b),
    fun h hspec => exec_repeat (fun d => exec_stl d r idx) (storeLimb_idempotent h hspec), fun i hi => ?_⟩
  simp only [List.mem_cons, List.not_mem_nil, or_false] at hi
  rcases hi with rfl | rfl
  · exact exec_repeat exec_rdc rfl
  · exact exec_repeat exec_rds rfl

end Sys2Proof.Machine
end

section
/-! Decoding and encoding are inverse to each other (30_encoding.md R64, R65, R68). -/

namespace Sys2Proof

/-- R65: a word decodes to the command its row makes of it, when the command is well formed. -/
theorem decode_eq_ok_iff {L : Nat} {w : CmdWord} {i : Instr} :
    decode L w = .ok i ↔ ∃ r, rowOf w = some r ∧ r.make w = i ∧ i.wf L = true := by
  unfold decode
  cases rowOf w with
  | none => simp
  | some r =>
    by_cases hwf : (r.make w).wf L = true
    · simp only [hwf, if_true, Except.ok.injEq, Option.some.injEq, exists_eq_left']
      exact ⟨fun h => ⟨h, h ▸ hwf⟩, fun h => h.1⟩
    · simp only [hwf, Bool.false_eq_true, if_false, reduceCtorEq, Option.some.injEq, exists_eq_left', false_iff]
      rintro ⟨rfl, h⟩
      exact hwf h

/-! ## From a command to its word and back -/

theorem rowOf_encode (i : Instr) : ∃ r, rowOf (encode i) = some r ∧ r.make (encode i) = i := by
  cases i with
  | ldl r idx => exact Laws.EncodeFindsRow.ldl r idx
  | stl r idx => exact Laws.EncodeFindsRow.stl r idx
  | rdc => exact Laws.EncodeFindsRow.rdc
  | rds => exact Laws.EncodeFindsRow.rds
  | and rd rs1 rs2 => exact Laws.EncodeFindsRow.and rd rs1 rs2
  | andW rd rs1 rs2 => exact Laws.EncodeFindsRow.andW rd rs1 rs2
  | andF rd rs1 rs2 => exact Laws.EncodeFindsRow.andF rd rs1 rs2
  | shl1c rd rs1 => exact Laws.EncodeFindsRow.shl1c rd rs1
  | shl rd rs1 n => exact Laws.EncodeFindsRow.shl rd rs1 n
  | shlW rd rs1 n => exact Laws.EncodeFindsRow.shlW rd rs1 n
  | shlF rd rs1 n => exact Laws.EncodeFindsRow.shlF rd rs1 n
  | shr rd rs1 n => exact Laws.EncodeFindsRow.shr rd rs1 n
  | shrW rd rs1 n => exact Laws.EncodeFindsRow.shrW rd rs1 n
  | shrF rd rs1 n => exact Laws.EncodeFindsRow.shrF rd rs1 n
  | shlw rl rh n => exact Laws.EncodeFindsRow.shlw rl rh n

theorem decode_encode {L : Nat} {i : Instr} (h : i.wf L = true) : decode L (encode i) = .ok i := by
  obtain ⟨r, hrow, hmake⟩ := rowOf_encode i
  exact decode_eq_ok_iff.2 ⟨r, hrow, hmake, h⟩

/-- Settles O3: the word of a command selects a row, and that row reads the command's own fields. -/
theorem decodeOfEncode : Obligations.DecodeOfEncode := fun _ _ => decode_encode

/-! ## From a word to its command and back

A word that passes a row's mask test has its free fields where the row's format puts them and no other bit. -/

theorem layout_of_selects_RRI {w : CmdWord} (op : BitVec 6) (cv : BitVec 2)
    (h : w &&& 0xFF000000 = layout op cv 0 0 0) : layout op cv (fieldRa w) (fieldRb w) (fieldImm18 w) = w := by
  obtain ⟨rfl, rfl⟩ := of_decide_eq_true ((selects_RRI w op cv).symm.trans (beq_iff_eq.2 h))
  exact layout_fields w

theorem layout_of_selects_RI {w : CmdWord} (op : BitVec 6) (cv : BitVec 2)
    (h : w &&& 0xFF1C0000 = layout op cv 0 0 0) : layout op cv (fieldRa w) 0 (fieldImm18 w) = w := by
  obtain ⟨rfl, rfl, hrb⟩ := of_decide_eq_true ((selects_RI w op cv).symm.trans (beq_iff_eq.2 h))
  rw [← hrb, layout_fields w]

theorem layout_of_selects_RRR {w : CmdWord} (op : BitVec 6) (cv : BitVec 2)
    (h : w &&& 0xFF007FFF = layout op cv 0 0 0) :
    layout op cv (fieldRa w) (fieldRb w) (lowRRR (fieldRc w)) = w := by
  obtain ⟨hop, hcv, hlow⟩ := of_decide_eq_true ((selects_RRR w op cv).symm.trans (beq_iff_eq.2 h))
  obtain ⟨op, cv, ra, rb, low, rfl⟩ := exists_layout w
  simp only [fieldOp_layout, fieldCv_layout, fieldImm18_layout] at hop hcv hlow
  obtain ⟨rc, rfl⟩ := (low_mbz low).1 hlow
  simp [hop, hcv]

theorem layout_of_selects_RR {w : CmdWord} (op : BitVec 6) (cv : BitVec 2)
    (h : w &&& 0xFF03FFFF = layout op cv 0 0 0) : layout op cv (fieldRa w) (fieldRb w) 0 = w := by
  obtain ⟨rfl, rfl, hlow⟩ := of_decide_eq_true ((selects_RR w op cv).symm.trans (beq_iff_eq.2 h))
  rw [← hlow, layout_fields w]

theorem layout_of_selects_Z {w : CmdWord} (op : BitVec 6) (cv : BitVec 2)
    (h : w &&& 0xFFFFFFFF = layout op cv 0 0 0) : layout op cv 0 0 0 = w :=
  h.symm.trans BitVec.and_allOnes

/-- No bit of a word that passes a row's mask test is dropped by the command the row makes of it. -/
def Row.Faithful (r : Row) : Prop := ∀ w, w &&& r.mask = r.pattern → encode (r.make w) = w

theorem rows_faithful : ∀ r ∈ rows, r.Faithful := by
  simp only [rows, List.forall_mem_cons, List.not_mem_nil, false_implies, implies_true, and_true]
  exact ⟨fun _ => layout_of_selects_RI 1 0, fun _ => layout_of_selects_RI 2 0, fun _ => layout_of_selects_Z 3 0,
    fun _ => layout_of_selects_Z 4 0, fun _ => layout_of_selects_RRR 8 0, fun _ => layout_of_selects_RRR 8 1,
    fun _ => layout_of_selects_RRR 8 2, fun _ => layout_of_selects_RR 9 0, fun _ => layout_of_selects_RRI 10 0,
    fun _ => layout_of_selects_RRI 10 1, fun _ => layout_of_selects_RRI 10 2, fun _ => layout_of_selects_RRI 11 0,
    fun _ => layout_of_selects_RRI 11 1, fun _ => layout_of_selects_RRI 11 2, fun _ => layout_of_selects_RRI 12 0⟩

theorem encode_of_rowOf {w : CmdWord} {r : Row} (h : rowOf w = some r) : encode (r.make w) = w :=
  rows_faithful r (List.mem_of_find?_eq_some h) w (by simpa using List.find?_some h)

/-- The words that decode to a command are the well-formed command's encoding, and no others. -/
theorem decode_eq_ok_iff_encode {L : Nat} {w : CmdWord} {i : Instr} :
    decode L w = .ok i ↔ encode i = w ∧ i.wf L = true := by
  constructor
  · intro h
    obtain ⟨r, hrow, rfl, hwf⟩ := decode_eq_ok_iff.1 h
    exact ⟨encode_of_rowOf hrow, hwf⟩
  · rintro ⟨rfl, hwf⟩
    exact decode_encode hwf

/-- Settles O4: the row a legal word selects is faithful. -/
theorem encodeOfDecode : Obligations.EncodeOfDecode := fun _ _ _ => decode_eq_ok_iff_encode.1

/-! ## The rows exclude each other -/

/-- Every row fixes `op` and `cv` of a word it selects, and leaves no other bit in its pattern. -/
theorem pattern_of_selects {r : Row} (hr : r ∈ rows) {w : CmdWord} (h : w &&& r.mask = r.pattern) :
    w &&& 0xFF000000 = r.pattern := by
  have hmask : ∀ r ∈ rows, r.mask &&& 0xFF000000 = 0xFF000000 ∧ r.pattern &&& 0xFF000000 = r.pattern := by decide
  obtain ⟨hm, hp⟩ := hmask r hr
  calc w &&& 0xFF000000
    _ = w &&& (r.mask &&& 0xFF000000) := by rw [hm]
    _ = r.pattern := by rw [← BitVec.and_assoc, h, hp]

/-- Settles O5: two rows that select one word have one pattern, and no two rows of R64 do. -/
theorem rowsAreMutuallyExclusive : Obligations.RowsAreMutuallyExclusive := by
  have hdistinct : rows.Pairwise fun r r' => r.pattern ≠ r'.pattern := by decide
  refine hdistinct.imp_of_mem fun hr hr' hne w ⟨h, h'⟩ => hne ?_
  exact (pattern_of_selects hr h).symm.trans (pattern_of_selects hr' h')

/-! ## The words of the spec -/

/-- Settles O1: `layout_toNat` for each format; the worked examples are evaluated. -/
theorem encodeFollowsFieldFormula : Obligations.EncodeFollowsFieldFormula := by
  refine ⟨fun r idx => ?_, fun r idx => ?_, ?_, ?_, fun rd rs1 rs2 => ?_, fun rd rs1 => ?_, fun rd rs1 n => ?_,
    by decide⟩
  · simp [encode, layout_toNat]
  · simp [encode, layout_toNat]
  · simp [encode, layout_toNat]
  · simp [encode, layout_toNat]
  · simp only [List.forall_mem_cons, encode, layout_toNat, lowRRR_toNat]
    simp
  · simp [encode, layout_toNat]
  · simp only [List.forall_mem_cons, encode, layout_toNat]
    simp

/-- Settles O2: the seventeen words are decoded. -/
theorem specWordsDecodeAsWritten : Obligations.SpecWordsDecodeAsWritten := by
  unfold Obligations.SpecWordsDecodeAsWritten
  decide

end Sys2Proof
end

section
/-! The illegal words (30_encoding.md R66): the list (a) to (f), read from a word's bits, is what no command encodes to. -/

namespace Sys2Proof

/-- The list (a) to (f) of R66, by arithmetic on the word, as the obligation writes it. -/
def Listed (L : Nat) (w : CmdWord) : Prop :=
  let op := w.toNat / 2 ^ 26
  let cv := w.toNat / 2 ^ 24 % 4
  op ∉ [1, 2, 3, 4, 8, 9, 10, 11, 12] ∨
    cv = 3 ∨
    (cv ≠ 0 ∧ op ∈ [1, 2, 3, 4, 9, 12]) ∨
    (op = 8 ∧ w.toNat % 2 ^ 15 ≠ 0) ∨ (op = 9 ∧ w.toNat % 2 ^ 18 ≠ 0) ∨
      (op ∈ [1, 2] ∧ w.toNat / 2 ^ 18 % 8 ≠ 0) ∨ (op ∈ [3, 4] ∧ w.toNat % 2 ^ 24 ≠ 0) ∨
    (op ∈ [1, 2] ∧ L ≤ w.toNat % 2 ^ 18) ∨
    (op = 12 ∧ w.toNat / 2 ^ 21 % 8 = w.toNat / 2 ^ 18 % 8)

/-- The list by the fields of the word. -/
theorem listed_layout {L : Nat} {op : BitVec 6} {cv : BitVec 2} {ra rb : RegNum} {low : Imm18} :
    Listed L (layout op cv ra rb low) ↔
      op.toNat ∉ [1, 2, 3, 4, 8, 9, 10, 11, 12] ∨
      cv.toNat = 3 ∨
      (cv.toNat ≠ 0 ∧ op.toNat ∈ [1, 2, 3, 4, 9, 12]) ∨
      (op.toNat = 8 ∧ low.toNat % 2 ^ 15 ≠ 0) ∨ (op.toNat = 9 ∧ low.toNat ≠ 0) ∨
        (op.toNat ∈ [1, 2] ∧ rb.val ≠ 0) ∨ (op.toNat ∈ [3, 4] ∧ (ra.val ≠ 0 ∨ rb.val ≠ 0 ∨ low.toNat ≠ 0)) ∨
      (op.toNat ∈ [1, 2] ∧ L ≤ low.toNat) ∨
      (op.toNat = 12 ∧ ra.val = rb.val) := by
  have hw := layout_toNat op cv ra rb low
  have hcv := cv.isLt
  have hra := ra.isLt
  have hrb := rb.isLt
  have hlow := low.isLt
  unfold Listed
  generalize (layout op cv ra rb low).toNat = w at hw
  have op_eq : w / 2 ^ 26 = op.toNat := by omega
  have cv_eq : w / 2 ^ 24 % 4 = cv.toNat := by omega
  have ra_eq : w / 2 ^ 21 % 8 = ra.val := by omega
  have rb_eq : w / 2 ^ 18 % 8 = rb.val := by omega
  have low_eq : w % 2 ^ 18 = low.toNat := by omega
  have mbz_eq : w % 2 ^ 15 = low.toNat % 2 ^ 15 := by omega
  have operands_eq : w % 2 ^ 24 ≠ 0 ↔ ra.val ≠ 0 ∨ rb.val ≠ 0 ∨ low.toNat ≠ 0 := by omega
  simp only [op_eq, cv_eq, ra_eq, rb_eq, low_eq, mbz_eq, operands_eq]

/-- A well-formed command's word is not on the list. -/
theorem not_listed_encode {L : Nat} {i : Instr} (h : i.wf L = true) : ¬ Listed L (encode i) := by
  cases i with
  | ldl r idx | stl r idx =>
    have hidx : idx.toNat < L := of_decide_eq_true h
    simp [encode, listed_layout, hidx]
  | shlw rl rh n =>
    have hne : rl.val ≠ rh.val := fun e => of_decide_eq_true h (Fin.ext e)
    simp [encode, listed_layout, hne]
  | and | andW | andF => simp [encode, listed_layout, lowRRR_toNat]
  | rdc | rds | shl1c | shl | shlW | shlF | shr | shrW | shrF => simp [encode, listed_layout]

theorem exists_eq_lowRRR {low : Imm18} (h : low.toNat % 2 ^ 15 = 0) : ∃ rc, low = lowRRR rc := by
  refine (low_mbz low).1 (BitVec.eq_of_toNat_eq ?_)
  rw [BitVec.toNat_and]
  exact (Nat.and_two_pow_sub_one_eq_mod low.toNat 15).trans h

/-- A word that is not on the list is a well-formed command's. -/
theorem exists_encode_of_not_listed {L : Nat} {w : CmdWord} (h : ¬ Listed L w) :
    ∃ i : Instr, encode i = w ∧ i.wf L = true := by
  obtain ⟨op, cv, ra, rb, low, rfl⟩ := exists_layout w
  simp only [listed_layout, not_or, not_and, not_not, ne_eq] at h
  obtain ⟨hop, hcv3, hcv0, hand, hshl1c, hrb, hz, hidx, hne⟩ := h
  have hop : op = 1 ∨ op = 2 ∨ op = 3 ∨ op = 4 ∨ op = 8 ∨ op = 9 ∨ op = 10 ∨ op = 11 ∨ op = 12 := by
    simpa [← BitVec.toNat_inj] using hop
  have hcv : cv = 0 ∨ cv = 1 ∨ cv = 2 :=
    (by decide : ∀ cv : BitVec 2, ¬ cv.toNat = 3 → cv = 0 ∨ cv = 1 ∨ cv = 2) cv hcv3
  have plain (hm : op.toNat ∈ [1, 2, 3, 4, 9, 12]) : cv = 0 :=
    BitVec.eq_of_toNat_eq (of_not_not fun hne => hcv0 hne hm)
  have no_rb (hm : op.toNat ∈ [1, 2]) : rb = 0 := Fin.ext (hrb hm)
  have index_lt (hm : op.toNat ∈ [1, 2]) : decide (low.toNat < L) = true := decide_eq_true (not_le.1 (hidx hm))
  have no_operands (hm : op.toNat ∈ [3, 4]) : ra = 0 ∧ rb = 0 ∧ low = 0 := by
    obtain ⟨ha, hb, hlow⟩ := hz hm
    exact ⟨Fin.ext ha, Fin.ext hb, BitVec.eq_of_toNat_eq hlow⟩
  rcases hop with rfl | rfl | rfl | rfl | rfl | rfl | rfl | rfl | rfl
  · obtain rfl := plain (by decide)
    obtain rfl := no_rb (by decide)
    exact ⟨.ldl ra low, rfl, index_lt (by decide)⟩
  · obtain rfl := plain (by decide)
    obtain rfl := no_rb (by decide)
    exact ⟨.stl ra low, rfl, index_lt (by decide)⟩
  · obtain rfl := plain (by decide)
    obtain ⟨rfl, rfl, rfl⟩ := no_operands (by decide)
    exact ⟨.rdc, rfl, rfl⟩
  · obtain rfl := plain (by decide)
    obtain ⟨rfl, rfl, rfl⟩ := no_operands (by decide)
    exact ⟨.rds, rfl, rfl⟩
  · obtain ⟨rc, rfl⟩ := exists_eq_lowRRR (hand rfl)
    rcases hcv with rfl | rfl | rfl
    exacts [⟨.and ra rb rc, rfl, rfl⟩, ⟨.andW ra rb rc, rfl, rfl⟩, ⟨.andF ra rb rc, rfl, rfl⟩]
  · obtain rfl := plain (by decide)
    obtain rfl : low = 0 := BitVec.eq_of_toNat_eq (hshl1c rfl)
    exact ⟨.shl1c ra rb, rfl, rfl⟩
  · rcases hcv with rfl | rfl | rfl
    exacts [⟨.shl ra rb low, rfl, rfl⟩, ⟨.shlW ra rb low, rfl, rfl⟩, ⟨.shlF ra rb low, rfl, rfl⟩]
  · rcases hcv with rfl | rfl | rfl
    exacts [⟨.shr ra rb low, rfl, rfl⟩, ⟨.shrW ra rb low, rfl, rfl⟩, ⟨.shrF ra rb low, rfl, rfl⟩]
  · obtain rfl := plain (by decide)
    have registers_differ : ra ≠ rb := fun e => hne rfl (congrArg Fin.val e)
    exact ⟨.shlw ra rb low, rfl, decide_eq_true registers_differ⟩

/-- R66: the legal words are those that are not on the list. -/
theorem exists_decode_eq_ok_iff {L : Nat} {w : CmdWord} : (∃ i, decode L w = .ok i) ↔ ¬ Listed L w := by
  constructor
  · rintro ⟨i, h⟩
    obtain ⟨rfl, hwf⟩ := decode_eq_ok_iff_encode.1 h
    exact not_listed_encode hwf
  · intro h
    obtain ⟨i, hi⟩ := exists_encode_of_not_listed h
    exact ⟨i, decode_eq_ok_iff_encode.2 hi⟩

theorem exists_decode_eq_error_of_listed {L : Nat} {w : CmdWord} (h : Listed L w) : ∃ e, decode L w = .error e := by
  cases hd : decode L w with
  | error e => exact ⟨e, rfl⟩
  | ok i => exact absurd h (exists_decode_eq_ok_iff.1 ⟨i, hd⟩)

namespace Machine

/-- Settles O7: latching the data word and taking the move is `Block.accept`. -/
theorem stepRunsTheDecodedCommand : Obligations.StepRunsTheDecodedCommand :=
  fun _ _ _ _ _ => step_issue_command

/-- Settles O6: a listed word decodes to an error, whose step is `Block.illegal`; any other decodes to a command. -/
theorem illegalWordsAreExactlyTheListed : Obligations.IllegalWordsAreExactlyTheListed := by
  intro c b w d rest hp
  refine ⟨fun (h : Listed c.LIMBS w) => ?_, fun (h : ¬ Listed c.LIMBS w) => ?_⟩
  · obtain ⟨e, he⟩ := exists_decode_eq_error_of_listed h
    exact ⟨_, step_issue_illegal b hp he, rfl, rfl, rfl, ⟨rfl, rfl⟩, rfl⟩
  · obtain ⟨i, hi⟩ := exists_decode_eq_ok_iff.2 h
    exact ⟨i, hi, step_issue_command hp hi⟩

end Machine
end Sys2Proof
end

section
/-! The pseudo-instructions (30_encoding.md R80): each line's moves, taken one step at a time. -/

namespace Sys2Proof.Machine

variable {c : Params} {b : Block c}

theorem val_bitand {W L : Nat} (x y : UInt W L) : val (bitand x y) = val x &&& val y := by
  have hlt : val x &&& val y < 2 ^ (L * W) := lt_of_le_of_lt Nat.and_le_left (val_lt x)
  rw [val_of_bits (bitand x y) (val x &&& val y), Nat.mod_eq_of_lt hlt]
  intro i hi j hj
  rw [getElem_bitand, BitVec.getLsbD_and, Nat.testBit_and, add_comm, val_testBit x i j hi hj, val_testBit y i j hi hj]

/-- The step that takes a command an assembler issued is that command, with the data word that came with it. -/
theorem step_issueOf {i : Instr} {d : Word c.W} {rest : List (HostMove c.W)} (h : b.pending = issueOf i d :: rest)
    (hwf : i.wf c.LIMBS = true) : step ⟨c, b⟩ = exec i ⟨c, b.accept ⟨encode i, d⟩ rest⟩ :=
  step_issue_command h (decode_encode hwf)

/-! ## The lines of one command -/

/-- One step from `b` ends with the value `v` in `u[rd]` and the moves `rest` to come, and keeps all else. -/
def StepsTo (b : Block c) (rd : RegNum) (v : Nat) (rest : List (HostMove c.W)) : Prop :=
  ∃ (b' : Block c) (z : UInt c.W c.LIMBS), step ⟨c, b⟩ = .next ⟨c, b'⟩ ∧ b'.readReg rd = some z ∧ val z = v ∧
    (∀ q, q ≠ rd → b'.u[q] = b.u[q]) ∧ b.KeepsFlags b' ∧ b'.err = b.err ∧ b'.pending = rest

theorem stepsTo_of_exec {i : Instr} {rd : RegNum} {v : Nat} {z : UInt c.W c.LIMBS} {rest : List (HostMove c.W)}
    (hwf : i.wf c.LIMBS = true)
    (hexec : ∀ d : Block c, d.u = b.u → exec i ⟨c, d⟩ = .next ⟨c, (d.writeReg rd (some z)).returns 0⟩)
    (hz : val z = v) (h : b.pending = issueOf i 0 :: rest) : StepsTo b rd v rest := by
  have hstep := (step_issueOf h hwf).trans (hexec _ rfl)
  exact ⟨_, z, hstep, Block.readReg_writeReg_same _ rd _, hz, fun q hq => Block.writeReg_other _ _ hq, ⟨rfl, rfl⟩,
    rfl, rfl⟩

theorem readReg_of_u_eq {d : Block c} {r : RegNum} {x : UInt c.W c.LIMBS} (h : b.readReg r = some x) (hu : d.u = b.u) :
    d.readReg r = some x :=
  (Block.readReg_congr (by rw [hu])).trans h

/-- AND and AND.W of specified registers. -/
theorem stepsTo_and {i : Instr} {rd rs1 rs2 : RegNum} {x y : UInt c.W c.LIMBS} {rest : List (HostMove c.W)}
    (hi : i = .and rd rs1 rs2 ∨ i = .andW rd rs1 rs2) (hx : b.readReg rs1 = some x) (hy : b.readReg rs2 = some y)
    (h : b.pending = issueOf i 0 :: rest) : StepsTo b rd (val x &&& val y) rest := by
  have hwrite (d : Block c) (hu : d.u = b.u) :
      d.binary bitand rd rs1 rs2 = (d.writeReg rd (some (bitand x y))).returns 0 :=
    d.binary_some (readReg_of_u_eq hx hu) (readReg_of_u_eq hy hu)
  rcases hi with rfl | rfl
  · exact stepsTo_of_exec rfl (fun d hu => by rw [exec_and, hwrite d hu]) (val_bitand x y) h
  · exact stepsTo_of_exec rfl (fun d hu => by rw [exec_andW, hwrite d hu]) (val_bitand x y) h

/-- SHL and SHL.W of a specified register. -/
theorem stepsTo_shl {i : Instr} {rd rs1 : RegNum} {n : Imm18} {x : UInt c.W c.LIMBS} {rest : List (HostMove c.W)}
    (hi : i = .shl rd rs1 n ∨ i = .shlW rd rs1 n) (hx : b.readReg rs1 = some x)
    (h : b.pending = issueOf i 0 :: rest) : StepsTo b rd (val x * 2 ^ n.toNat % 2 ^ c.TB) rest := by
  have hwrite (d : Block c) (hu : d.u = b.u) : d.unary (fun a => shiftLeftVartime a n.toNat) rd rs1 =
      (d.writeReg rd (some (shiftLeftVartime x n.toNat))).returns 0 := d.unary_some (readReg_of_u_eq hx hu)
  rcases hi with rfl | rfl
  · exact stepsTo_of_exec rfl (fun d hu => by rw [exec_shl, hwrite d hu]) (val_shiftLeftVartime x _) h
  · exact stepsTo_of_exec rfl (fun d hu => by rw [exec_shlW, hwrite d hu]) (val_shiftLeftVartime x _) h

/-- SHR and SHR.W of a specified register. -/
theorem stepsTo_shr {i : Instr} {rd rs1 : RegNum} {n : Imm18} {x : UInt c.W c.LIMBS} {rest : List (HostMove c.W)}
    (hi : i = .shr rd rs1 n ∨ i = .shrW rd rs1 n) (hx : b.readReg rs1 = some x)
    (h : b.pending = issueOf i 0 :: rest) : StepsTo b rd (val x / 2 ^ n.toNat) rest := by
  have hwrite (d : Block c) (hu : d.u = b.u) : d.unary (fun a => shiftRightVartime a n.toNat) rd rs1 =
      (d.writeReg rd (some (shiftRightVartime x n.toNat))).returns 0 := d.unary_some (readReg_of_u_eq hx hu)
  rcases hi with rfl | rfl
  · exact stepsTo_of_exec rfl (fun d hu => by rw [exec_shr, hwrite d hu]) (val_shiftRightVartime x _) h
  · exact stepsTo_of_exec rfl (fun d hu => by rw [exec_shrW, hwrite d hu]) (val_shiftRightVartime x _) h

/-- R7 keeps `TB` below the largest shift amount, so the shift that CLR stands for leaves ZERO. -/
theorem mul_two_pow_max_mod_eq_zero (c : Params) (v : Nat) : v * 2 ^ (262143 : Imm18).toNat % 2 ^ c.TB = 0 := by
  have hle : c.TB ≤ (262143 : Imm18).toNat := le_trans c.encodable (by decide)
  exact Nat.mod_eq_zero_of_dvd ((pow_dvd_pow 2 hle).mul_left v)

/-- Settles O32: MOV and the assignment forms are AND, SHL and SHR in place; CLR is a shift past the width. -/
theorem pseudoInstructionsHaveTheirEffect : Obligations.PseudoInstructionsHaveTheirEffect := by
  intro c b rd rs n rest x y hx hy
  simp only [List.forall_mem_cons, List.not_mem_nil, false_implies, implies_true, and_true]
  refine ⟨fun h => ?_, stepsTo_and (.inl rfl) hx hy, stepsTo_and (.inr rfl) hx hy, stepsTo_shl (.inl rfl) hx,
    stepsTo_shl (.inr rfl) hx, stepsTo_shr (.inl rfl) hx, stepsTo_shr (.inr rfl) hx, fun h => ?_⟩
  · have hmov := stepsTo_and (.inl rfl) hy hy h
    rwa [Nat.and_self] at hmov
  · have hclr := stepsTo_shl (.inl rfl) hx h
    rwa [mul_two_pow_max_mod_eq_zero] at hclr

/-! ## LDU -/

/-- The move of LDU that loads limb `k` of the literal `v`. -/
def lduMove (c : Params) (rd : RegNum) (v k : Nat) : HostMove c.W :=
  issueOf (.ldl rd (BitVec.ofNat 18 k)) (BitVec.ofNat c.W (v / 2 ^ (k * c.W)))

theorem moves_ldu (c : Params) (rd : RegNum) (v : Nat) :
    (AsmLine.ldu rd v).moves c = (List.range c.LIMBS).map (lduMove c rd v) := rfl

/-- `b'` is `b` with the limbs of `u[rd]` at the indices `ks` loaded from the literal `v`. -/
structure Loaded (rd : RegNum) (v : Nat) (ks : List Nat) (b b' : Block c) : Prop where
  cell : ∀ k : Fin c.LIMBS,
    b'.cell rd k = if k.val ∈ ks then ⟨(fromVal c.W c.LIMBS v)[k], true⟩ else b.cell rd k
  others : ∀ q, q ≠ rd → b'.u[q] = b.u[q]
  flags : b.KeepsFlags b'
  err : b'.err = b.err

theorem Loaded.nil (rd : RegNum) (v : Nat) (b : Block c) : Loaded rd v [] b b :=
  ⟨fun k => by simp, fun _ _ => rfl, ⟨rfl, rfl⟩, rfl⟩

theorem Loaded.append {rd : RegNum} {v : Nat} {ks ls : List Nat} {b₁ b₂ : Block c} (h₁ : Loaded rd v ks b b₁)
    (h₂ : Loaded rd v ls b₁ b₂) : Loaded rd v (ks ++ ls) b b₂ := by
  obtain ⟨cell₁, others₁, ⟨carry₁, valid₁⟩, err₁⟩ := h₁
  obtain ⟨cell₂, others₂, ⟨carry₂, valid₂⟩, err₂⟩ := h₂
  refine ⟨fun k => ?_, fun q hq => (others₂ q hq).trans (others₁ q hq), ⟨carry₂.trans carry₁, valid₂.trans valid₁⟩,
    err₂.trans err₁⟩
  rw [cell₂, cell₁]
  by_cases hl : k.val ∈ ls <;> simp [hl]

/-- A limb index fits the immediate (R7, R62). -/
theorem toNat_ofNat_index {k : Nat} (h : k < c.LIMBS) : (BitVec.ofNat 18 k).toNat = k := by
  have hle : c.LIMBS ≤ 2 ^ 17 - 1 :=
    (Nat.le_mul_of_pos_right c.LIMBS (by have := c.wide_enough; omega)).trans c.encodable
  rw [BitVec.toNat_ofNat, Nat.mod_eq_of_lt (by omega)]

theorem Block.writeLimb_other (b : Block c) {r q : RegNum} (j : Fin c.LIMBS) (x : Word c.W) (h : q ≠ r) :
    (b.writeLimb r j x).u[q] = b.u[q] := by
  have hne : r.val ≠ q.val := fun e => h (Fin.ext e.symm)
  simp [hne]

/-- One LDL of LDU loads its limb. -/
theorem step_lduMove {rd : RegNum} {v k : Nat} {rest : List (HostMove c.W)} (hk : k < c.LIMBS)
    (h : b.pending = lduMove c rd v k :: rest) :
    ∃ b' : Block c, step ⟨c, b⟩ = .next ⟨c, b'⟩ ∧ Loaded rd v [k] b b' ∧ b'.pending = rest := by
  have hidx := toNat_ofNat_index hk
  have hlt : (BitVec.ofNat 18 k).toNat < c.LIMBS := by rwa [hidx]
  have hstep := step_issueOf h (decide_eq_true hlt)
  rw [exec_ldl, loadLimb_of_lt _ rd hlt] at hstep
  refine ⟨_, hstep, ⟨fun j => ?_, fun q hq => ?_, ⟨rfl, rfl⟩, rfl⟩, rfl⟩
  · refine (Block.cell_writeLimb _ rd rd _ j _).trans ?_
    by_cases hjk : j.val = k
    · simp [hidx, hjk, Fin.ext_iff]
    · rw [if_neg (by simp [hidx, Ne.symm hjk, Fin.ext_iff]), if_neg (by simpa using hjk)]
      rfl
  · exact Block.writeLimb_other _ _ _ hq

/-- A run of LDU's moves loads the limbs they name. -/
theorem run_lduMoves {rd : RegNum} {v : Nat} {ks : List Nat} {rest : List (HostMove c.W)} (hks : ∀ k ∈ ks, k < c.LIMBS)
    (h : b.pending = ks.map (lduMove c rd v) ++ rest) :
    ∃ b' : Block c, Host.Core.run core ks.length (State.mk c b) = .next (State.mk c b') ∧ Loaded rd v ks b b' ∧
      b'.pending = rest := by
  induction ks generalizing b with
  | nil => exact ⟨b, rfl, .nil rd v b, h⟩
  | cons k ks ih =>
    obtain ⟨hk, hks⟩ := List.forall_mem_cons.1 hks
    obtain ⟨b₁, hstep, hloaded₁, hpending⟩ := step_lduMove hk h
    obtain ⟨b', hrun, hloaded, hrest⟩ := ih hks hpending
    exact ⟨b', (run_succ _ hstep).trans hrun, hloaded₁.append hloaded, hrest⟩

/-- Settles O31: the run loads every limb of the register, and the limbs are those of `from_val(v)`. -/
theorem lduLoadsAWholeInteger : Obligations.LduLoadsAWholeInteger := by
  intro c b rd v rest hv h
  rw [moves_ldu] at h
  obtain ⟨b', hrun, hloaded, hrest⟩ := run_lduMoves (fun k hk => List.mem_range.1 hk) h
  rw [List.length_range] at hrun
  have hread : b'.readReg rd = some (fromVal c.W c.LIMBS v) :=
    b'.readReg_eq_some.2 fun k => (hloaded.cell k).trans (if_pos (List.mem_range.2 k.isLt))
  exact ⟨b', _, hrun, hread, by rw [val_fromVal, Nat.mod_eq_of_lt hv], hloaded.others, hloaded.flags, hloaded.err, hrest⟩

end Sys2Proof.Machine
end

section
/-! The word primitives where they are defined, and the places where an OR is a sum (40_limb_primitives.md R91 to R100). -/

namespace Sys2Proof.Machine

variable {W L : Nat}

/-! ## The value of each primitive -/

@[simp] theorem toNat_shiftLeftOne (a : Word W) : (shiftLeftOne a).toNat = 2 * a.toNat % 2 ^ W :=
  BitVec.toNat_ofNat _ _

@[simp] theorem toNat_topBit (a : Word W) : (topBit a).toNat = a.toNat / 2 ^ (W - 1) := by
  rw [topBit, BitVec.toNat_ofNat, Nat.mod_eq_of_lt (lt_of_le_of_lt (Nat.div_le_self _ _) a.isLt)]

theorem toNat_wordShl (a : Word W) {k : Nat} (h : k < W) : (wordShl a k).toNat = a.toNat * 2 ^ k % 2 ^ W := by
  rw [wordShl, if_pos h, BitVec.toNat_ofNat]

theorem toNat_wordShr (a : Word W) {k : Nat} (h : k < W) : (wordShr a k).toNat = a.toNat / 2 ^ k := by
  rw [wordShr, if_pos h, BitVec.toNat_ofNat, Nat.mod_eq_of_lt (lt_of_le_of_lt (Nat.div_le_self _ _) a.isLt)]

theorem wordAnd_broadcast_true (a : Word W) : wordAnd a (broadcast W true) = a := BitVec.and_allOnes

theorem wordAnd_broadcast_false (a : Word W) : wordAnd a (broadcast W false) = 0 := BitVec.and_zero

theorem topBit_le_one (a : Word W) (hW : 1 ≤ W) : (topBit a).toNat ≤ 1 := by
  have hlt : a.toNat < 2 ^ (W - 1) * 2 := by rw [Nat.two_pow_pred_mul_two hW]; exact a.isLt
  rw [toNat_topBit]
  exact Nat.le_of_lt_succ (Nat.div_lt_of_lt_mul hlt)

/-- R92: `topBit` is the bit that `shiftLeftOne` discards. -/
theorem two_mul_eq_topBit_add_shiftLeftOne (a : Word W) (hW : 1 ≤ W) :
    2 * a.toNat = (topBit a).toNat * 2 ^ W + (shiftLeftOne a).toNat := by
  have hquot : 2 * a.toNat / 2 ^ W = a.toNat / 2 ^ (W - 1) := by
    rw [← Nat.two_pow_pred_mul_two hW, mul_comm 2, Nat.mul_div_mul_right _ _ two_pos]
  rw [toNat_topBit, toNat_shiftLeftOne, ← hquot, Nat.div_add_mod']

/-- R93: `select` in the mask form the document suggests. -/
theorem select_eq_masks (a b : Word W) (x : Choice) :
    select a b x = wordOr (wordAnd a (BitVec.allOnes W - broadcast W x)) (wordAnd b (broadcast W x)) := by
  cases x <;> simp [select, wordOr, wordAnd]

theorem isNonzero_eq_true_iff (a : Word W) : isNonzero a = true ↔ a.toNat ≠ 0 := by
  simp [isNonzero, BitVec.toNat_eq]

theorem wordShl_zero (a : Word W) (hW : 1 ≤ W) : wordShl a 0 = a :=
  BitVec.eq_of_toNat_eq (by rw [toNat_wordShl a hW, pow_zero, mul_one, Nat.mod_eq_of_lt a.isLt])

theorem wordShr_zero (a : Word W) (hW : 1 ≤ W) : wordShr a 0 = a :=
  BitVec.eq_of_toNat_eq (by rw [toNat_wordShr a hW, pow_zero, Nat.div_one])

theorem wordShr_pred_width (a : Word W) (hW : 1 ≤ W) : wordShr a (W - 1) = topBit a :=
  BitVec.eq_of_toNat_eq (by rw [toNat_wordShr a (by omega), toNat_topBit])

theorem wordShl_one (a : Word W) (hW : 1 < W) : wordShl a 1 = shiftLeftOne a :=
  BitVec.eq_of_toNat_eq (by rw [toNat_wordShl a hW, toNat_shiftLeftOne, pow_one, mul_comm])

/-- Settles O38: each primitive has the value its rule gives it. -/
theorem wordPrimitivesAreAsDefined : Obligations.WordPrimitivesAreAsDefined := by
  intro W a b x hW
  exact ⟨two_mul_eq_topBit_add_shiftLeftOne a hW, topBit_le_one a hW, select_eq_masks a b x, isNonzero_eq_true_iff a,
    wordAnd_broadcast_true a, wordAnd_broadcast_false a, fun k hk => ⟨toNat_wordShl a hk, toNat_wordShr a hk⟩,
    wordShl_zero a hW, wordShr_zero a hW, wordShr_pred_width a hW, wordShl_one a⟩

/-! ## Operands without a common bit (R96, R100) -/

/-- A multiple of `2^k` and a number below `2^k` have no bit in common. -/
theorem and_eq_zero_of_dvd_of_lt {k x y : Nat} (hx : 2 ^ k ∣ x) (hy : y < 2 ^ k) : x &&& y = 0 := by
  obtain ⟨q, rfl⟩ := hx
  apply Nat.eq_of_testBit_eq
  intro j
  rw [Nat.testBit_and, Nat.testBit_two_pow_mul, Nat.zero_testBit]
  by_cases hj : k ≤ j
  · have hhigh : y.testBit j = false := Nat.testBit_lt_two_pow (lt_of_lt_of_le hy (Nat.pow_le_pow_right two_pos hj))
    rw [hhigh, Bool.and_false]
  · simp [hj]

theorem getLsbD_eq_false_of_dvd {x : Word W} {j k : Nat} (hx : 2 ^ k ∣ x.toNat) (hj : j < k) : x.getLsbD j = false := by
  obtain ⟨q, hq⟩ := hx
  rw [BitVec.getLsbD, hq, Nat.testBit_two_pow_mul, decide_eq_false (by omega), Bool.false_and]

theorem wordAnd_comm (x y : Word W) : wordAnd x y = wordAnd y x := BitVec.and_comm x y

theorem wordAnd_eq_zero_of_dvd_of_lt {x y : Word W} {k : Nat} (hx : 2 ^ k ∣ x.toNat) (hy : y.toNat < 2 ^ k) :
    wordAnd x y = 0 :=
  BitVec.eq_of_toNat_eq (by rw [wordAnd, BitVec.toNat_and, and_eq_zero_of_dvd_of_lt hx hy]; rfl)

/-- R96: the OR of words without a common bit is their sum. -/
theorem toNat_wordOr_of_wordAnd_eq_zero {x y : Word W} (h : wordAnd x y = 0) :
    (wordOr x y).toNat = x.toNat + y.toNat := by
  rw [wordOr, ← BitVec.add_eq_or_of_and_eq_zero x y h, BitVec.toNat_add_of_and_eq_zero h]

/-- R96 limb by limb: the OR of integers without a common bit is their sum. -/
theorem val_uintOr_of_bitand_eq_zero {x y : UInt W L} (h : bitand x y = zeroUInt W L) :
    val (uintOr x y) = val x + val y := by
  have hlimb (i : Fin L) : ((uintOr x y)[i]).toNat = (x[i]).toNat + (y[i]).toNat := by
    have hand : x[i] &&& y[i] = 0 := by simpa using congrArg (fun z : UInt W L => z[i]) h
    simpa [wordOr] using toNat_wordOr_of_wordAnd_eq_zero hand
  simp only [val_eq_sum, hlimb, add_mul, Finset.sum_add_distrib]

/-! ## The operands of each OR (R100) -/

theorem two_pow_dvd_shiftLeftOne (a : Word W) (hW : 1 ≤ W) : 2 ^ 1 ∣ (shiftLeftOne a).toNat := by
  rw [toNat_shiftLeftOne]
  exact (Nat.dvd_mod_iff (pow_dvd_pow 2 hW)).2 (Dvd.intro _ rfl)

theorem two_pow_dvd_wordShl (a : Word W) {k : Nat} (h : k < W) : 2 ^ k ∣ (wordShl a k).toNat := by
  rw [toNat_wordShl a h]
  exact (Nat.dvd_mod_iff (pow_dvd_pow 2 h.le)).2 (Dvd.intro_left _ rfl)

theorem wordShr_lt (a : Word W) {k : Nat} (h : k < W) : (wordShr a k).toNat < 2 ^ (W - k) := by
  rw [toNat_wordShr a h]
  apply Nat.div_lt_of_lt_mul
  rw [← pow_add, Nat.add_sub_cancel' h.le]
  exact a.isLt

/-- R132, R147: the mask of the neighbour's term. At `bs = 0` it clears a shift by `W`, which has no defined value. -/
theorem wordAnd_mask (a : Word W) (bs : Nat) : wordAnd a (broadcast W (bs != 0)) = if bs = 0 then 0 else a := by
  cases bs with
  | zero => exact wordAnd_broadcast_false a
  | succ n => exact wordAnd_broadcast_true a

/-- R132: the neighbour's term of the left shift. -/
theorem masked_wordShr_lt (a : Word W) {bs : Nat} (h : bs < W) :
    (wordAnd (wordShr a (W - bs)) (broadcast W (bs != 0))).toNat < 2 ^ bs := by
  rw [wordAnd_mask]
  split
  · exact Nat.two_pow_pos bs
  · have hlt := wordShr_lt a (show W - bs < W by omega)
    rwa [Nat.sub_sub_self h.le] at hlt

/-- R147: the neighbour's term of the right shift. -/
theorem two_pow_dvd_masked_wordShl (a : Word W) {bs : Nat} (h : bs < W) :
    2 ^ (W - bs) ∣ (wordAnd (wordShl a (W - bs)) (broadcast W (bs != 0))).toNat := by
  rw [wordAnd_mask]
  split
  · exact dvd_zero _
  · exact two_pow_dvd_wordShl a (by omega)

theorem two_pow_dvd_val_shiftLeftVartime (a : UInt W L) {n : Nat} (h : n ≤ L * W) :
    2 ^ n ∣ val (shiftLeftVartime a n) := by
  rw [val_shiftLeftVartime]
  exact (Nat.dvd_mod_iff (pow_dvd_pow 2 h)).2 (Dvd.intro_left _ rfl)

theorem val_shiftRightVartime_lt (a : UInt W L) {n : Nat} (h : n ≤ L * W) :
    val (shiftRightVartime a (L * W - n)) < 2 ^ n := by
  rw [val_shiftRightVartime]
  apply Nat.div_lt_of_lt_mul
  rw [← pow_add, Nat.sub_add_cancel h]
  exact val_lt a

/-- R161: what the wide shift folds into the upper half has no bit in common with the shifted upper half. -/
theorem bitand_fold_eq_zero (lower upper : UInt W L) (n : Nat) :
    bitand (shiftLeftVartime upper n)
      (if n < L * W then shiftRightVartime lower (L * W - n) else shiftLeftVartime lower (n - L * W)) =
        zeroUInt W L := by
  apply val_injective
  rw [val_bitand, val_zeroUInt]
  by_cases h : n < L * W
  · rw [if_pos h]
    exact and_eq_zero_of_dvd_of_lt (two_pow_dvd_val_shiftLeftVartime upper h.le) (val_shiftRightVartime_lt lower h.le)
  · have hupper : shiftLeftVartime upper n = zeroUInt W L := if_pos (not_lt.1 h)
    rw [hupper, val_zeroUInt, Nat.zero_and]

/-- Settles O39: at each OR one operand is a multiple of a power of two that the other is below. -/
theorem orIsSumWhereverUsed : Obligations.OrIsSumWhereverUsed := by
  refine ⟨fun W x y hW => ?_, fun W x y bs hbs => ?_, fun W L lower upper n => ?_⟩
  · have hdvd := two_pow_dvd_shiftLeftOne x hW
    have hle := topBit_le_one y hW
    have hand := wordAnd_eq_zero_of_dvd_of_lt hdvd (Nat.lt_succ_of_le hle)
    exact ⟨getLsbD_eq_false_of_dvd hdvd one_pos, hle, hand, toNat_wordOr_of_wordAnd_eq_zero hand⟩
  · have hshl := two_pow_dvd_wordShl x hbs
    have hlo := masked_wordShr_lt y hbs
    have hshr := wordShr_lt x hbs
    have hhi := two_pow_dvd_masked_wordShl y hbs
    have hleft := wordAnd_eq_zero_of_dvd_of_lt hshl hlo
    have hright := (wordAnd_comm _ _).trans (wordAnd_eq_zero_of_dvd_of_lt hhi hshr)
    exact ⟨fun j => getLsbD_eq_false_of_dvd hshl, hlo, hshr, fun j => getLsbD_eq_false_of_dvd hhi, hleft,
      toNat_wordOr_of_wordAnd_eq_zero hleft, hright, toNat_wordOr_of_wordAnd_eq_zero hright⟩
  · have hand := bitand_fold_eq_zero lower upper n
    exact ⟨hand, val_uintOr_of_bitand_eq_zero hand⟩

end Sys2Proof.Machine
end

section
/-! Bitwise AND: the laws of `bitand`, and AND, AND.W and AND.F on specified sources (41_bitand.md R110 to R114). -/

namespace Sys2Proof.Machine

variable {c : Params} {b : Block c} {i : Instr} {W L : Nat}

/-! ## The integer function -/

theorem bitand_comm (x y : UInt W L) : bitand x y = bitand y x :=
  Vector.ext fun k hk => by rw [getElem_bitand, getElem_bitand, BitVec.and_comm]

theorem bitand_self (x : UInt W L) : bitand x x = x :=
  Vector.ext fun k hk => by rw [getElem_bitand, BitVec.and_self]

theorem bitand_zeroUInt (x : UInt W L) : bitand x (zeroUInt W L) = zeroUInt W L :=
  Vector.ext fun k hk => by
    rw [getElem_bitand, getElem_zeroUInt]
    exact BitVec.and_zero

theorem bitand_maxUInt (x : UInt W L) : bitand x (maxUInt W L) = x :=
  Vector.ext fun k hk => by rw [getElem_bitand, getElem_maxUInt, BitVec.and_allOnes]

/-- Settles O37: `bitand` obeys the laws of AND in every limb, and AND.F writes `valid` whatever its sources hold. -/
theorem bitandProperties : Obligations.BitandProperties :=
  ⟨fun _ _ x y => ⟨bitand_comm x y, bitand_self x, bitand_zeroUInt x, bitand_maxUInt x, congrArg val, val_injective⟩,
    fun ⟨_, b⟩ rd rs1 rs2 => ⟨_, exec_andF b rd rs1 rs2, rfl⟩⟩

/-! ## The commands -/

/-- What a command with the one destination `u[rd]` does when its sources are specified: it completes with `z` in `u[rd]`
and `valid = v`, returns 0, and changes nothing else. -/
def ResultsIn (b : Block c) (i : Instr) (rd : RegNum) (z : UInt c.W c.LIMBS) (v : Choice) : Prop :=
  ∃ b' : Block c, exec i ⟨c, b⟩ = .next ⟨c, b'⟩ ∧ b'.readReg rd = some z ∧ b'.valid = v ∧ b'.carry = b.carry ∧
    b'.rdata = 0 ∧ b.KeepsBut b' [rd]

theorem resultsIn_plain {rd : RegNum} {z : UInt c.W c.LIMBS}
    (h : exec i ⟨c, b⟩ = .next ⟨c, (b.writeReg rd (some z)).returns 0⟩) : ResultsIn b i rd z b.valid :=
  ⟨_, h, b.readReg_writeReg_same rd (some z), rfl, rfl, rfl, b.keepsBut_writeReg rd (some z)⟩

theorem resultsIn_flagged {rd : RegNum} {z : UInt c.W c.LIMBS}
    (h : exec i ⟨c, b⟩ = .next ⟨c, ((b.writeReg rd (some z)).returns 0).setValid⟩) : ResultsIn b i rd z true :=
  ⟨_, h, b.readReg_writeReg_same rd (some z), rfl, rfl, rfl, b.keepsBut_writeReg rd (some z)⟩

/-- Both sources are read before the write (R26), so no case depends on whether `u[rd]` is one of them. -/
theorem and_forms_result (rd : RegNum) {rs1 rs2 : RegNum} {x y : UInt c.W c.LIMBS} (hx : b.readReg rs1 = some x)
    (hy : b.readReg rs2 = some y) :
    ∀ p ∈ [(Instr.and rd rs1 rs2, b.valid), (.andW rd rs1 rs2, b.valid), (.andF rd rs1 rs2, true)],
      ResultsIn b p.1 rd (bitand x y) p.2 := by
  have hwrite : b.binary bitand rd rs1 rs2 = (b.writeReg rd (some (bitand x y))).returns 0 := b.binary_some hx hy
  simp only [List.forall_mem_cons, List.not_mem_nil, false_implies, implies_true, and_true]
  exact ⟨resultsIn_plain (by rw [exec_and, hwrite]), resultsIn_plain (by rw [exec_andW, hwrite]),
    resultsIn_flagged (by rw [exec_andF, hwrite])⟩

/-- Settles O17: the destination holds `bitand` of the sources, whose limbs and whose value are ANDs. -/
theorem andFormsComputeBitwiseAnd : Obligations.AndFormsComputeBitwiseAnd := by
  intro c b rd rs1 rs2 x y hx hy p hp
  obtain ⟨b', hexec, hread, hvalid, hcarry, hrdata, hkeeps⟩ := and_forms_result rd hx hy p hp
  have hbits (j : Nat) : (val (bitand x y)).testBit j = ((val x).testBit j && (val y).testBit j) := by
    rw [val_bitand, Nat.testBit_and]
  exact ⟨b', bitand x y, hexec, hread, fun k => getElem_bitand x y k k.isLt, hbits, hvalid, hcarry, hrdata, hkeeps⟩

end Sys2Proof.Machine
end

section
/-! The single-bit left shift with mask-carry: its value equation, and SHL1C on a specified source
(42_shift_one_carry.md R120 to R122). -/

namespace Sys2Proof.Machine

variable {c : Params} {b : Block c} {W L : Nat}

/-! ## The carry bits and the mask -/

/-- R120: `carry_bit[i]` is the top bit of limb `i`, read off the value. -/
theorem toNat_carryBit (a : UInt W L) (i : Nat) (hW : 1 ≤ W) :
    (carryBit a i).toNat = val a / 2 ^ (i * W + (W - 1)) % 2 := by
  rw [carryBit, toNat_topBit, toNat_limbAt, ← Nat.two_pow_pred_mul_two hW, Nat.mod_mul_right_div_self,
    Nat.div_div_eq_div_mul, ← pow_add]

theorem carryBit_lt_two (a : UInt W L) (i : Nat) (hW : 1 ≤ W) : (carryBit a i).toNat < 2 :=
  Nat.lt_succ_of_le (topBit_le_one _ hW)

/-- R122: the carry bit of the top limb is what twice the value has above `TB` bits. -/
theorem toNat_carryBit_last (a : UInt W L) (hW : 1 ≤ W) (hL : 1 ≤ L) :
    (carryBit a (L - 1)).toNat = val a / 2 ^ (L * W - 1) := by
  obtain ⟨k, rfl⟩ := Nat.exists_eq_add_of_le' hL
  have hindex : (k + 1) * W - 1 = k * W + (W - 1) := by rw [Nat.succ_mul]; omega
  have hlt : val a < 2 ^ ((k + 1) * W - 1) * 2 := by
    rw [Nat.two_pow_pred_mul_two (Nat.mul_pos k.succ_pos hW)]
    exact val_lt a
  rw [Nat.add_sub_cancel, toNat_carryBit a k hW, ← hindex, Nat.mod_eq_of_lt (Nat.div_lt_of_lt_mul hlt)]

/-- R94, R95: the mask of a word that is a quotient by `2^k` tells whether the dividend reaches `2^k`. -/
theorem broadcast_isNonzero_of_toNat_eq_div {x : Word W} {n k : Nat} (h : x.toNat = n / 2 ^ k) :
    broadcast W (isNonzero x) = if 2 ^ k ≤ n then BitVec.allOnes W else 0 := by
  have hiff : isNonzero x = true ↔ 2 ^ k ≤ n := by
    rw [isNonzero_eq_true_iff, h, ← Nat.pos_iff_ne_zero, Nat.div_pos_iff, and_iff_right (Nat.two_pow_pos k)]
  simp only [broadcast, hiff]

/-! ## The shifted integer -/

/-- R120 with the OR as a sum: `shiftLeftOne` leaves bit 0 clear for the carry of the limb below. -/
theorem toNat_limb_shiftLeftOneWithCarry (a : UInt W L) {i : Nat} (hi : i < L) (hW : 1 ≤ W) :
    ((shiftLeftOneWithCarry a).1[i]).toNat =
      2 * (a[i]).toNat % 2 ^ W + if i = 0 then 0 else (carryBit a (i - 1)).toNat := by
  rw [getElem_shiftLeftOneWithCarry a i hi]
  split
  · rw [toNat_shiftLeftOne, add_zero]
  · have hand := wordAnd_eq_zero_of_dvd_of_lt (two_pow_dvd_shiftLeftOne a[i] hW) (carryBit_lt_two a (i - 1) hW)
    rw [toNat_wordOr_of_wordAnd_eq_zero hand, toNat_shiftLeftOne]

/-- A number doubled, in digits: digit `k + 1` is twice the old digit and the top bit of digit `k`. -/
theorem two_mul_digit_succ (v k : Nat) (hW : 1 ≤ W) :
    2 * v / 2 ^ ((k + 1) * W) % 2 ^ W =
      2 * (v / 2 ^ ((k + 1) * W) % 2 ^ W) % 2 ^ W + v / 2 ^ (k * W + (W - 1)) % 2 := by
  have hweight : 2 ^ ((k + 1) * W) = 2 ^ (k * W + (W - 1)) * 2 := by
    rw [← pow_succ, Nat.succ_mul]
    congr 1
    omega
  rw [hweight, mul_comm 2 v, Nat.mul_div_mul_right _ _ two_pos, ← Nat.div_div_eq_div_mul, Nat.mul_mod_mod,
    ← Nat.two_pow_pred_mul_two hW, mul_comm _ 2, Nat.mod_mul, Nat.mul_mod_mul_left, add_comm]

theorem shiftLeftOneWithCarry_eq_fromVal (a : UInt W L) (hW : 1 ≤ W) :
    (shiftLeftOneWithCarry a).1 = fromVal W L (2 * val a) := by
  apply Vector.ext
  intro i hi
  apply BitVec.eq_of_toNat_eq
  rw [toNat_limb_shiftLeftOneWithCarry a hi hW, toNat_limb_fromVal _ i hi, toNat_limb a i hi]
  cases i with
  | zero => simp
  | succ k => rw [if_neg k.succ_ne_zero, Nat.add_sub_cancel, toNat_carryBit a k hW, two_mul_digit_succ _ k hW]

theorem val_shiftLeftOneWithCarry (a : UInt W L) (hW : 1 ≤ W) :
    val (shiftLeftOneWithCarry a).1 = 2 * val a % 2 ^ (L * W) := by
  rw [shiftLeftOneWithCarry_eq_fromVal a hW, val_fromVal]

/-- R122: nothing of the doubled value is lost, the bit above `TB` bits being the carry. -/
theorem two_mul_val_eq (a : UInt W L) (hW : 1 ≤ W) (hL : 1 ≤ L) :
    2 * val a = val (shiftLeftOneWithCarry a).1 + (carryBit a (L - 1)).toNat * 2 ^ (L * W) := by
  have hquot : 2 * val a / 2 ^ (L * W) = val a / 2 ^ (L * W - 1) := by
    rw [← Nat.two_pow_pred_mul_two (Nat.mul_pos hL hW), mul_comm 2, Nat.mul_div_mul_right _ _ two_pos]
  rw [val_shiftLeftOneWithCarry a hW, toNat_carryBit_last a hW hL, ← hquot, Nat.mod_add_div']

/-- R122: the document's composition property with the shift by a variable amount. -/
theorem shiftLeftOneWithCarry_eq_shiftLeftVartime (a : UInt W L) (hW : 1 ≤ W) :
    (shiftLeftOneWithCarry a).1 = shiftLeftVartime a 1 :=
  val_injective (by rw [val_shiftLeftOneWithCarry a hW, val_shiftLeftVartime, pow_one, mul_comm])

/-- Settles O20: the shifted integer has the digits of twice the value, and the carry is the bit they leave out. -/
theorem singleBitShiftValueEquation : Obligations.SingleBitShiftValueEquation := by
  intro W L a hW hL
  have hcarry := toNat_carryBit_last a hW hL
  have hbit : (carryBit a (L - 1)).toNat = ((val a).testBit (L * W - 1)).toNat := by
    rw [Nat.toNat_testBit, ← hcarry, Nat.mod_eq_of_lt (carryBit_lt_two a _ hW)]
  exact ⟨hbit, two_mul_val_eq a hW hL, val_shiftLeftOneWithCarry a hW, broadcast_isNonzero_of_toNat_eq_div hcarry,
    shiftLeftOneWithCarry_eq_shiftLeftVartime a hW⟩

/-! ## The command -/

/-- Settles O19: limb by limb as `shiftLeftOneWithCarry` is; the mask is that of the top limb's top bit. -/
theorem shl1cShiftsLimbsAndMasksTheCarry : Obligations.Shl1cShiftsLimbsAndMasksTheCarry := by
  intro c b rd rs1 x hx
  have hexec := exec_shl1c b rd rs1
  rw [shiftOneCarry_some hx] at hexec
  have hW : 1 ≤ c.W := le_trans (by decide) c.wide_enough
  have hlimb (i : Fin c.LIMBS) : ((shiftLeftOneWithCarry x).1[i]).toNat = 2 * (x[i]).toNat % 2 ^ c.W +
      if i.val = 0 then 0 else (limbAt x (i.val - 1)).toNat / 2 ^ (c.W - 1) := by
    rw [← toNat_topBit]
    exact toNat_limb_shiftLeftOneWithCarry x i.isLt hW
  exact ⟨_, _, hexec, b.readReg_writeReg_same rd _, hlimb, broadcast_isNonzero_of_toNat_eq_div (toNat_topBit _), rfl,
    rfl, b.keepsBut_writeReg rd _⟩

end Sys2Proof.Machine
end

section
/-! The variable-amount left shift: its limb decomposition, its laws, and SHL, SHL.W and SHL.F on a specified source
(43_shift_left.md R130 to R139). -/

namespace Sys2Proof.Machine

variable {c : Params} {b : Block c} {W L : Nat}

/-! ## The limb decomposition -/

/-- R132: the neighbour's term of the left shift has the neighbour's top `bs` bits. It is 0 at `bs = 0`, as its mask says,
because a word is below `2^W`. -/
theorem toNat_masked_wordShr (a : Word W) {bs : Nat} (h : bs < W) :
    (wordAnd (wordShr a (W - bs)) (broadcast W (bs != 0))).toNat = a.toNat / 2 ^ (W - bs) := by
  rw [wordAnd_mask]
  split
  · rename_i hbs
    rw [hbs, Nat.sub_zero, Nat.div_eq_of_lt a.isLt]
    exact BitVec.toNat_zero
  · exact toNat_wordShr a (by omega)

/-- R132 with the OR as a sum: what each limb takes from the limb it is moved from and from that limb's lower neighbour. -/
theorem toNat_limb_shiftLeftLimbs (a : UInt W L) {n i : Nat} (hi : i < L) (hW : 1 ≤ W) :
    ((shiftLeftLimbs a n)[i]).toNat =
      if i < n / W then 0
      else if i = n / W then (limbAt a 0).toNat * 2 ^ (n % W) % 2 ^ W
      else (limbAt a (i - n / W)).toNat * 2 ^ (n % W) % 2 ^ W +
        (limbAt a (i - n / W - 1)).toNat / 2 ^ (W - n % W) := by
  have hbs : n % W < W := Nat.mod_lt n hW
  rw [shiftLeftLimbs, Vector.getElem_ofFn]
  split
  · exact BitVec.toNat_zero
  · split
    · exact toNat_wordShl _ hbs
    · have hand := wordAnd_eq_zero_of_dvd_of_lt (two_pow_dvd_wordShl (limbAt a (i - n / W)) hbs)
        (masked_wordShr_lt (limbAt a (i - n / W - 1)) hbs)
      rw [toNat_wordOr_of_wordAnd_eq_zero hand, toNat_wordShl _ hbs, toNat_masked_wordShr _ hbs]

/-! ## The digits of a number times a power of two -/

/-- The digits below the power are 0. -/
theorem mul_two_pow_digit_eq_zero (v : Nat) {n i : Nat} (h : (i + 1) * W ≤ n) :
    v * 2 ^ n / 2 ^ (i * W) % 2 ^ W = 0 := by
  obtain ⟨k, rfl⟩ := Nat.exists_eq_add_of_le h
  have hpow : 2 ^ ((i + 1) * W + k) = 2 ^ (i * W) * (2 ^ W * 2 ^ k) := by ring
  rw [hpow, Nat.mul_left_comm, Nat.mul_div_cancel_left _ (Nat.two_pow_pos _), Nat.mul_left_comm, Nat.mul_mod_right]

/-- A power of two of `s` whole digits and `t` bits moves the digits up by `s`. -/
theorem mul_two_pow_div_shifted (v s t k : Nat) :
    v * 2 ^ (s * W + t) / 2 ^ ((s + k) * W) = v * 2 ^ t / 2 ^ (k * W) := by
  rw [pow_add, Nat.mul_left_comm, Nat.add_mul, pow_add, Nat.mul_div_mul_left _ _ (Nat.two_pow_pos _)]

/-- A power of two of `t` bits: digit `k + 1` is the old digit, moved up inside the limb, and the top `t` bits of digit
`k`. -/
theorem mul_two_pow_digit_succ (v k : Nat) {t : Nat} (ht : t ≤ W) :
    v * 2 ^ t / 2 ^ ((k + 1) * W) % 2 ^ W =
      v / 2 ^ ((k + 1) * W) % 2 ^ W * 2 ^ t % 2 ^ W + v / 2 ^ (k * W) % 2 ^ W / 2 ^ (W - t) := by
  have hW : 2 ^ W = 2 ^ (W - t) * 2 ^ t := by rw [← pow_add, Nat.sub_add_cancel ht]
  have hweight : 2 ^ ((k + 1) * W) = 2 ^ (k * W) * 2 ^ W := by rw [Nat.succ_mul, pow_add]
  have hquot : v * 2 ^ t / 2 ^ ((k + 1) * W) = v / 2 ^ (k * W) / 2 ^ (W - t) := by
    rw [hweight, hW, ← mul_assoc, Nat.mul_div_mul_right _ _ (Nat.two_pow_pos t), Nat.div_div_eq_div_mul]
  rw [hquot, hweight, ← Nat.div_div_eq_div_mul, Nat.mod_mul_mod]
  generalize v / 2 ^ (k * W) = q
  rw [hW, Nat.mul_mod_mul_right, Nat.mod_mul_right_div_self, ← Nat.div_div_eq_div_mul, mul_comm _ (2 ^ t), Nat.mod_mul,
    mul_comm (2 ^ t), add_comm]

/-! ## The integer function -/

/-- R132 computes R130: limb by limb, the decomposition has the digits of `val(a) * 2^n`. -/
theorem shiftLeftLimbs_eq_fromVal (a : UInt W L) (n : Nat) (hW : 1 ≤ W) :
    shiftLeftLimbs a n = fromVal W L (val a * 2 ^ n) := by
  apply Vector.ext
  intro i hi
  apply BitVec.eq_of_toNat_eq
  rw [toNat_limb_shiftLeftLimbs a hi hW, toNat_limb_fromVal _ i hi]
  by_cases hlow : i < n / W
  · have hle : (i + 1) * W ≤ n := le_trans (Nat.mul_le_mul_right W hlow) (Nat.div_mul_le_self n W)
    rw [if_pos hlow, mul_two_pow_digit_eq_zero _ hle]
  · obtain ⟨k, rfl⟩ := Nat.exists_eq_add_of_le (not_lt.1 hlow)
    have hmoved := mul_two_pow_div_shifted (W := W) (val a) (n / W) (n % W) k
    rw [Nat.div_add_mod'] at hmoved
    rw [if_neg hlow, hmoved]
    cases k with
    | zero => simp [toNat_limbAt, Nat.mod_mul_mod]
    | succ k =>
      rw [if_neg (by omega), Nat.add_sub_cancel_left, Nat.add_sub_cancel, toNat_limbAt, toNat_limbAt,
        mul_two_pow_digit_succ _ k (Nat.mod_lt n hW).le]

theorem val_shiftLeftLimbs (a : UInt W L) (n : Nat) (hW : 1 ≤ W) :
    val (shiftLeftLimbs a n) = val a * 2 ^ n % 2 ^ (L * W) := by
  rw [shiftLeftLimbs_eq_fromVal a n hW, val_fromVal]

/-- R131 -/
theorem shiftLeftVartime_of_le (a : UInt W L) {n : Nat} (h : L * W ≤ n) : shiftLeftVartime a n = zeroUInt W L :=
  if_pos h

/-- Settles O42: `shiftLeftLimbs` has the value of the contract, and an integer is determined by its value. -/
theorem leftShiftLimbsComputeTheContract : Obligations.LeftShiftLimbsComputeTheContract := by
  intro W L a n hW
  have hsat (h : L * W ≤ n) : val (zeroUInt W L) = val a * 2 ^ n % 2 ^ (L * W) := by
    rw [← shiftLeftVartime_of_le a h, val_shiftLeftVartime]
  have hexec : shiftLeftVartime a n = if n < L * W then shiftLeftLimbs a n else zeroUInt W L := by
    split
    · exact val_injective (by rw [val_shiftLeftVartime, val_shiftLeftLimbs a n hW])
    · rename_i h
      exact shiftLeftVartime_of_le a (not_lt.1 h)
  exact ⟨fun _ => val_shiftLeftLimbs a n hW, hsat, hexec⟩

/-! ## The laws (R138) -/

theorem shiftLeftVartime_zero (a : UInt W L) : shiftLeftVartime a 0 = a :=
  val_injective (by rw [val_shiftLeftVartime, pow_zero, mul_one, Nat.mod_eq_of_lt (val_lt a)])

theorem shiftLeftVartime_shiftLeftVartime (a : UInt W L) (m n : Nat) :
    shiftLeftVartime (shiftLeftVartime a m) n = shiftLeftVartime a (m + n) :=
  val_injective (by simp only [val_shiftLeftVartime, Nat.mod_mul_mod, pow_add, mul_assoc])

theorem shiftLeftVartime_zeroUInt (n : Nat) : shiftLeftVartime (zeroUInt W L) n = zeroUInt W L :=
  val_injective (by rw [val_shiftLeftVartime, val_zeroUInt, Nat.zero_mul, Nat.zero_mod])

theorem shiftLeftVartime_bitand (x y : UInt W L) (n : Nat) :
    shiftLeftVartime (bitand x y) n = bitand (shiftLeftVartime x n) (shiftLeftVartime y n) :=
  val_injective (by
    simp only [val_shiftLeftVartime, val_bitand, ← Nat.shiftLeft_eq, Nat.shiftLeft_and_distrib, Nat.and_mod_two_pow])

/-- Settles O40: each law holds of the values `val(a) * 2^n mod 2^TB`. -/
theorem leftShiftLaws : Obligations.LeftShiftLaws := fun _ _ x y hW _ =>
  ⟨shiftLeftVartime_zero x, fun _ => shiftLeftVartime_of_le x, shiftLeftOneWithCarry_eq_shiftLeftVartime x hW,
    shiftLeftVartime_shiftLeftVartime x, shiftLeftVartime_zeroUInt, shiftLeftVartime_bitand x y⟩

/-! ## The commands -/

/-- The plain, the wraparound and the flagged form of a one-source function on a specified source. -/
theorem unary_forms_result {plain wrapping flagged : Instr} {f : UInt c.W c.LIMBS → UInt c.W c.LIMBS} {rd rs1 : RegNum}
    {x : UInt c.W c.LIMBS} (hx : b.readReg rs1 = some x)
    (hplain : exec plain ⟨c, b⟩ = .next ⟨c, b.unary f rd rs1⟩)
    (hwrapping : exec wrapping ⟨c, b⟩ = .next ⟨c, b.unary f rd rs1⟩)
    (hflagged : exec flagged ⟨c, b⟩ = .next ⟨c, (b.unary f rd rs1).setValid⟩) :
    ∀ p ∈ [(plain, b.valid), (wrapping, b.valid), (flagged, true)], ResultsIn b p.1 rd (f x) p.2 := by
  rw [b.unary_some hx] at hplain hwrapping hflagged
  simp only [List.forall_mem_cons, List.not_mem_nil, false_implies, implies_true, and_true]
  exact ⟨resultsIn_plain hplain, resultsIn_plain hwrapping, resultsIn_flagged hflagged⟩

/-- Settles O21: the destination holds `shiftLeftVartime` of the source, whose value is the contract's for every amount. -/
theorem shlFormsMultiplyByPowerOfTwo : Obligations.ShlFormsMultiplyByPowerOfTwo := by
  intro c b rd rs1 n x hx p hp
  obtain ⟨b', hexec, hread, hvalid, hcarry, hrdata, hkeeps⟩ :=
    unary_forms_result hx (exec_shl b rd rs1 n) (exec_shlW b rd rs1 n) (exec_shlF b rd rs1 n) p hp
  exact ⟨b', _, hexec, hread, val_shiftLeftVartime x n.toNat, hvalid, hcarry, hrdata, hkeeps⟩

end Sys2Proof.Machine
end

section
/-! The right shift: its limb decomposition, its laws, and SHR, SHR.W and SHR.F on a specified source
(44_shift_right.md R145 to R152). -/

namespace Sys2Proof.Machine

variable {c : Params} {b : Block c} {W L : Nat}

/-! ## The limb decomposition -/

/-- R147: the neighbour's term of the right shift has the neighbour's low `bs` bits at the top. It is 0 at `bs = 0`, as
its mask says, because a multiple of `2^W` is cut to nothing. -/
theorem toNat_masked_wordShl (a : Word W) {bs : Nat} (h : bs < W) :
    (wordAnd (wordShl a (W - bs)) (broadcast W (bs != 0))).toNat = a.toNat * 2 ^ (W - bs) % 2 ^ W := by
  rw [wordAnd_mask]
  split
  · rename_i hbs
    rw [hbs, Nat.sub_zero, Nat.mul_mod_left]
    exact BitVec.toNat_zero
  · exact toNat_wordShl a (by omega)

/-- R147 with the OR as a sum: what each limb takes from the limb it is moved from and from that limb's upper neighbour.
The sum covers the top limb and the cleared ones too, since `limbAt` is 0 past the top. -/
theorem toNat_limb_shiftRightLimbs (a : UInt W L) {n i : Nat} (hi : i < L) (hW : 1 ≤ W) :
    ((shiftRightLimbs a n)[i]).toNat =
      (limbAt a (i + n / W + 1)).toNat * 2 ^ (W - n % W) % 2 ^ W + (limbAt a (i + n / W)).toNat / 2 ^ (n % W) := by
  have hbs : n % W < W := Nat.mod_lt n hW
  simp only [shiftRightLimbs, Vector.getElem_ofFn]
  split
  · have hand := wordAnd_eq_zero_of_dvd_of_lt (two_pow_dvd_masked_wordShl (limbAt a (i + n / W + 1)) hbs)
      (wordShr_lt (limbAt a (i + n / W)) hbs)
    rw [toNat_wordOr_of_wordAnd_eq_zero ((wordAnd_comm _ _).trans hand), toNat_wordShr _ hbs,
      toNat_masked_wordShl _ hbs, add_comm]
  · rw [limbAt_of_le a (i + n / W + 1) (by omega)]
    split
    · have hindex : L - 1 = i + n / W := by omega
      rw [hindex, toNat_wordShr _ hbs]
      simp
    · rw [limbAt_of_le a (i + n / W) (by omega)]
      simp

/-- The digits of a quotient by a power of two of `s` whole digits and `t` bits. Shifting right by `t` bits inside a
limb is shifting left by the other `W - t` and moving down one limb, so these are digits of a product. -/
theorem div_two_pow_digit (v s i : Nat) {t : Nat} (ht : t ≤ W) :
    v / 2 ^ (s * W + t) / 2 ^ (i * W) % 2 ^ W =
      v / 2 ^ ((i + s + 1) * W) % 2 ^ W * 2 ^ (W - t) % 2 ^ W + v / 2 ^ ((i + s) * W) % 2 ^ W / 2 ^ t := by
  have hexp : (i + s + 1) * W = s * W + t + i * W + (W - t) := by
    rw [Nat.succ_mul, Nat.add_mul]
    omega
  have hquot : v / 2 ^ (s * W + t) / 2 ^ (i * W) = v * 2 ^ (W - t) / 2 ^ ((i + s + 1) * W) := by
    rw [hexp, pow_add _ _ (W - t), Nat.mul_div_mul_right _ _ (Nat.two_pow_pos _), Nat.div_div_eq_div_mul, ← pow_add]
  rw [hquot, mul_two_pow_digit_succ v (i + s) (Nat.sub_le W t), Nat.sub_sub_self ht]

/-- R147 computes R145: limb by limb, the decomposition has the digits of `val(a) / 2^n`. -/
theorem shiftRightLimbs_eq_fromVal (a : UInt W L) (n : Nat) (hW : 1 ≤ W) :
    shiftRightLimbs a n = fromVal W L (val a / 2 ^ n) := by
  apply Vector.ext
  intro i hi
  apply BitVec.eq_of_toNat_eq
  have hdigit := div_two_pow_digit (val a) (n / W) i (Nat.mod_lt n hW).le
  rw [Nat.div_add_mod'] at hdigit
  rw [toNat_limb_shiftRightLimbs a hi hW, toNat_limb_fromVal _ i hi, toNat_limbAt, toNat_limbAt, hdigit]

theorem val_shiftRightLimbs (a : UInt W L) (n : Nat) (hW : 1 ≤ W) : val (shiftRightLimbs a n) = val a / 2 ^ n := by
  have hlt : val a / 2 ^ n < 2 ^ (L * W) := lt_of_le_of_lt (Nat.div_le_self _ _) (val_lt a)
  rw [shiftRightLimbs_eq_fromVal a n hW, val_fromVal, Nat.mod_eq_of_lt hlt]

/-- R146 -/
theorem shiftRightVartime_of_le (a : UInt W L) {n : Nat} (h : L * W ≤ n) : shiftRightVartime a n = zeroUInt W L :=
  if_pos h

/-- Settles O43: `shiftRightLimbs` has the value of the contract, and an integer is determined by its value. -/
theorem rightShiftLimbsComputeTheContract : Obligations.RightShiftLimbsComputeTheContract := by
  intro W L a n hW
  have hsat (h : L * W ≤ n) : val (zeroUInt W L) = val a / 2 ^ n := by
    rw [← shiftRightVartime_of_le a h, val_shiftRightVartime]
  have hexec : shiftRightVartime a n = if n < L * W then shiftRightLimbs a n else zeroUInt W L := by
    split
    · exact val_injective (by rw [val_shiftRightVartime, val_shiftRightLimbs a n hW])
    · rename_i h
      exact shiftRightVartime_of_le a (not_lt.1 h)
  exact ⟨fun _ => val_shiftRightLimbs a n hW, hsat, hexec⟩

/-! ## The laws (R152) -/

theorem shiftRightVartime_zero (a : UInt W L) : shiftRightVartime a 0 = a :=
  val_injective (by rw [val_shiftRightVartime, pow_zero, Nat.div_one])

theorem shiftRightVartime_shiftRightVartime (a : UInt W L) (m n : Nat) :
    shiftRightVartime (shiftRightVartime a m) n = shiftRightVartime a (m + n) :=
  val_injective (by simp only [val_shiftRightVartime, Nat.div_div_eq_div_mul, pow_add])

/-- Left then right keeps what the left shift does not push out: all but the top `n` bits. -/
theorem val_shiftRightVartime_shiftLeftVartime (a : UInt W L) {n : Nat} (h : n ≤ L * W) :
    val (shiftRightVartime (shiftLeftVartime a n) n) = val a % 2 ^ (L * W - n) := by
  have hpow : 2 ^ (L * W) = 2 ^ (L * W - n) * 2 ^ n := by rw [← pow_add, Nat.sub_add_cancel h]
  rw [val_shiftRightVartime, val_shiftLeftVartime, hpow, Nat.mul_mod_mul_right,
    Nat.mul_div_cancel _ (Nat.two_pow_pos n)]

theorem shiftRightVartime_shiftLeftVartime_eq_self_iff (a : UInt W L) {n : Nat} (h : n ≤ L * W) :
    shiftRightVartime (shiftLeftVartime a n) n = a ↔ val a / 2 ^ (L * W - n) = 0 := by
  have hpos : 2 ^ (L * W - n) ≠ 0 := (Nat.two_pow_pos _).ne'
  calc shiftRightVartime (shiftLeftVartime a n) n = a
    _ ↔ val (shiftRightVartime (shiftLeftVartime a n) n) = val a := ⟨congrArg val, val_injective⟩
    _ ↔ val a < 2 ^ (L * W - n) := by rw [val_shiftRightVartime_shiftLeftVartime a h, Nat.mod_eq_iff_lt hpos]
    _ ↔ val a / 2 ^ (L * W - n) = 0 := by rw [Nat.div_eq_zero_iff, or_iff_right hpos]

/-- Right then left clears the `n` low bits; nothing is pushed out at the top, so the cut to `TB` bits has no effect. -/
theorem val_shiftLeftVartime_shiftRightVartime (a : UInt W L) (n : Nat) :
    val (shiftLeftVartime (shiftRightVartime a n) n) = val a - val a % 2 ^ n := by
  have hlt : val a / 2 ^ n * 2 ^ n < 2 ^ (L * W) := lt_of_le_of_lt (Nat.div_mul_le_self _ _) (val_lt a)
  rw [val_shiftLeftVartime, val_shiftRightVartime, Nat.mod_eq_of_lt hlt, Nat.div_mul_self_eq_mod_sub_self]

theorem shiftRightVartime_bitand (x y : UInt W L) (n : Nat) :
    shiftRightVartime (bitand x y) n = bitand (shiftRightVartime x n) (shiftRightVartime y n) :=
  val_injective (by
    simp only [val_shiftRightVartime, val_bitand, ← Nat.shiftRight_eq_div_pow, Nat.shiftRight_and_distrib])

/-- The result and the discarded bits make up the integer, for every `n`. -/
theorem val_eq_val_shiftRightVartime_mul_add_mod (a : UInt W L) (n : Nat) :
    val a = val (shiftRightVartime a n) * 2 ^ n + val a % 2 ^ n := by
  rw [val_shiftRightVartime, Nat.div_add_mod']

/-- Settles O41: each law holds of the values `val(a) / 2^n`. -/
theorem rightShiftLaws : Obligations.RightShiftLaws := fun _ _ x y =>
  ⟨shiftRightVartime_zero x, fun _ => shiftRightVartime_of_le x, shiftRightVartime_shiftRightVartime x,
    fun _ => shiftRightVartime_shiftLeftVartime_eq_self_iff x, val_shiftLeftVartime_shiftRightVartime x,
    shiftRightVartime_bitand x y, fun n _ => val_eq_val_shiftRightVartime_mul_add_mod x n⟩

/-! ## The commands -/

/-- Settles O22: the destination holds `shiftRightVartime` of the source, whose value is the contract's for every
amount. -/
theorem shrFormsDivideByPowerOfTwo : Obligations.ShrFormsDivideByPowerOfTwo := by
  intro c b rd rs1 n x hx p hp
  obtain ⟨b', hexec, hread, hvalid, hcarry, hrdata, hkeeps⟩ :=
    unary_forms_result hx (exec_shr b rd rs1 n) (exec_shrW b rd rs1 n) (exec_shrF b rd rs1 n) p hp
  exact ⟨b', _, hexec, hread, val_shiftRightVartime x n.toNat, hvalid, hcarry, hrdata, hkeeps⟩

end Sys2Proof.Machine
end

section
/-! The wide left shift: its value equation and its saturation, and SHLW on specified sources (45_wide_shift.md R160 to
R163). -/

namespace Sys2Proof.Machine

variable {c : Params} {W L : Nat}

/-! ## The value equation (R161) -/

/-- The fold of R160 has the value of what shifting `lower` by `n` pushes past its top, cut to one half. -/
theorem val_fold (lower : UInt W L) (n : Nat) :
    val (if n < L * W then shiftRightVartime lower (L * W - n) else shiftLeftVartime lower (n - L * W)) =
      val lower * 2 ^ n / 2 ^ (L * W) % 2 ^ (L * W) := by
  split
  · rename_i h
    have hpow : 2 ^ (L * W) = 2 ^ (L * W - n) * 2 ^ n := by rw [← pow_add, Nat.sub_add_cancel h.le]
    have hdiv : val lower * 2 ^ n / 2 ^ (L * W) = val (shiftRightVartime lower (L * W - n)) := by
      rw [val_shiftRightVartime, hpow, Nat.mul_div_mul_right _ _ (Nat.two_pow_pos n)]
    rw [hdiv, Nat.mod_eq_of_lt (val_lt _)]
  · rename_i h
    have hpow : 2 ^ n = 2 ^ (n - L * W) * 2 ^ (L * W) := by rw [← pow_add, Nat.sub_add_cancel (not_lt.1 h)]
    rw [val_shiftLeftVartime, hpow, ← mul_assoc, Nat.mul_div_cancel _ (Nat.two_pow_pos _)]

/-- The low half: the shifted pair's value modulo `2^TB`, to which `upper` contributes nothing. -/
theorem val_shiftLeftVartimeWide_fst (lower upper : UInt W L) (n : Nat) :
    val (shiftLeftVartimeWide lower upper n).1 =
      (val lower + val upper * 2 ^ (L * W)) * 2 ^ n % 2 ^ (L * W) :=
  calc val (shiftLeftVartime lower n)
    _ = val lower * 2 ^ n % 2 ^ (L * W) := val_shiftLeftVartime lower n
    _ = (val lower * 2 ^ n + val upper * 2 ^ n * 2 ^ (L * W)) % 2 ^ (L * W) := by rw [Nat.add_mul_mod_self_right]
    _ = (val lower + val upper * 2 ^ (L * W)) * 2 ^ n % 2 ^ (L * W) := by rw [add_mul, mul_right_comm]

/-- The high half: the OR is the sum of the shifted `upper` and what `lower` pushes past its top. That sum is below
`2^TB`, being the value of the half, so it may be taken modulo `2^TB`. -/
theorem val_shiftLeftVartimeWide_snd (lower upper : UInt W L) (n : Nat) :
    val (shiftLeftVartimeWide lower upper n).2 =
      (val lower + val upper * 2 ^ (L * W)) * 2 ^ n / 2 ^ (L * W) % 2 ^ (L * W) := by
  have hsum : val (shiftLeftVartimeWide lower upper n).2 =
      val upper * 2 ^ n % 2 ^ (L * W) + val lower * 2 ^ n / 2 ^ (L * W) % 2 ^ (L * W) := by
    rw [← val_shiftLeftVartime, ← val_fold]
    exact val_uintOr_of_bitand_eq_zero (bitand_fold_eq_zero lower upper n)
  rw [← Nat.mod_eq_of_lt (val_lt (shiftLeftVartimeWide lower upper n).2), hsum, ← Nat.add_mod, add_mul,
    mul_right_comm, Nat.add_mul_div_right _ _ (Nat.two_pow_pos _), add_comm]

/-- Settles O44: the halves are the two base-`2^TB` digits of the shifted value, which the cut to `2 * TB` bits keeps. -/
theorem wideShiftRoundTrip : Obligations.WideShiftRoundTrip := by
  intro W L lower upper n D
  have hpow : 2 ^ (2 * (L * W)) = 2 ^ (L * W) * 2 ^ (L * W) := by rw [two_mul, pow_add]
  constructor
  · rw [val_shiftLeftVartimeWide_fst, Nat.mod_mod_of_dvd _ (Dvd.intro _ hpow.symm)]
  · rw [val_shiftLeftVartimeWide_snd, ← Nat.mod_mul_right_div_self, ← hpow]

/-! ## Saturation (R163) -/

theorem zeroUInt_uintOr (x : UInt W L) : uintOr (zeroUInt W L) x = x :=
  Vector.ext fun k hk => by
    rw [getElem_uintOr, getElem_zeroUInt]
    exact BitVec.zero_or

/-- From `n = TB` on, the low half is ZERO and only `lower` reaches the high half. -/
theorem shiftLeftVartimeWide_of_le (lower upper : UInt W L) {n : Nat} (h : L * W ≤ n) :
    shiftLeftVartimeWide lower upper n = (zeroUInt W L, shiftLeftVartime lower (n - L * W)) := by
  rw [shiftLeftVartimeWide, shiftLeftVartime_of_le lower h, shiftLeftVartime_of_le upper h, if_neg (not_lt.2 h),
    zeroUInt_uintOr]

theorem shiftLeftVartimeWide_of_two_mul_le (lower upper : UInt W L) {n : Nat} (h : 2 * (L * W) ≤ n) :
    shiftLeftVartimeWide lower upper n = (zeroUInt W L, zeroUInt W L) := by
  rw [shiftLeftVartimeWide_of_le lower upper (by omega), shiftLeftVartime_of_le lower (by omega)]

/-- At `n = TB` the low half moves whole into the high half. -/
theorem shiftLeftVartimeWide_width (lower upper : UInt W L) :
    shiftLeftVartimeWide lower upper (L * W) = (zeroUInt W L, lower) := by
  rw [shiftLeftVartimeWide_of_le lower upper le_rfl, Nat.sub_self, shiftLeftVartime_zero]

/-- Settles O45: the document's scenarios are the shifts by `2 * TB` and by `TB` of 128-bit halves. -/
theorem wideShiftSaturation : Obligations.WideShiftSaturation :=
  ⟨fun _ _ lower upper _ => ⟨fun h => congrArg Prod.fst (shiftLeftVartimeWide_of_le lower upper h),
      shiftLeftVartimeWide_of_two_mul_le lower upper, shiftLeftVartimeWide_width lower upper⟩,
    shiftLeftVartimeWide_of_two_mul_le _ _ le_rfl, shiftLeftVartimeWide_width _ _⟩

/-! ## The command (R162) -/

/-- The wide shift of a pair, read as one integer. -/
theorem val_shiftLeftVartimeWide (lower upper : UInt W L) (n : Nat) :
    val (shiftLeftVartimeWide lower upper n).1 + val (shiftLeftVartimeWide lower upper n).2 * 2 ^ (L * W) =
      (val lower + val upper * 2 ^ (L * W)) * 2 ^ n % 2 ^ (2 * (L * W)) := by
  obtain ⟨hlo, hhi⟩ := wideShiftRoundTrip W L lower upper n
  rw [hlo, hhi, Nat.mod_add_div']

theorem Block.onlyErr_illegal (b : Block c) : b.OnlyErr b.illegal := ⟨rfl, rfl, rfl, ⟨rfl, rfl⟩, rfl, rfl, rfl⟩

/-- Settles O23: the registers hold the two halves of the wide shift; on one register the command is illegal. -/
theorem shlwShiftsThePairInPlace : Obligations.ShlwShiftsThePairInPlace := by
  intro c b rl rh n
  constructor
  · intro x y hne hx hy
    have hexec := exec_shlw b rl rh n
    rw [wideShift_some hne hx hy] at hexec
    have hlow := (Block.readReg_writeReg_other _ (some (shiftLeftVartimeWide x y n.toNat).2) hne).trans
      (b.readReg_writeReg_same rl (some (shiftLeftVartimeWide x y n.toNat).1))
    exact ⟨_, _, _, hexec, hlow, Block.readReg_writeReg_same _ rh _, val_shiftLeftVartimeWide x y n.toNat, ⟨rfl, rfl⟩,
      rfl, b.keepsBut_writeReg_writeReg rl rh _ _⟩
  · rintro rfl
    have hexec := exec_shlw b rl rl n
    rw [wideShift_self] at hexec
    exact ⟨_, hexec, b.onlyErr_illegal⟩

end Sys2Proof.Machine
end

section
/-! The wraparound convention: the `.W` forms and the plain forms have one meaning, which writes no flag
(46_result_conventions.md R171, R175). -/

namespace Sys2Proof.Machine

variable {c : Params} {b : Block c}

/-- A well-formed command that is neither flagged nor SHL1C writes no flag (R23 to R25). -/
theorem exec_keeps_flags_and_err {b' : Block c} {i : Instr} (h : exec i ⟨c, b⟩ = .next ⟨c, b'⟩)
    (hwf : i.wf c.LIMBS = true) (hf : isFlagged i = false) (hi : ∀ rd rs1, i ≠ .shl1c rd rs1) :
    b.KeepsFlags b' ∧ b'.err = b.err := by
  have hvalid : b'.valid = b.valid := by rw [exec_valid h, hf, Bool.or_false]
  have herr : b'.err = b.err := by rw [exec_err h, hwf, Bool.not_true, Bool.or_false]
  exact ⟨⟨exec_carry h hi, hvalid⟩, herr⟩

/-- Two commands that complete in one block are equal there; the second one's flags are those of both. -/
theorem exec_eq_and_keeps_flags {d : Block c} {wrapping plain : Instr}
    (hwrapping : exec wrapping ⟨c, b⟩ = .next ⟨c, d⟩) (hplain : exec plain ⟨c, b⟩ = .next ⟨c, d⟩)
    (hwf : plain.wf c.LIMBS = true) (hf : isFlagged plain = false) (hi : ∀ rd rs1, plain ≠ .shl1c rd rs1) :
    exec wrapping ⟨c, b⟩ = exec plain ⟨c, b⟩ ∧
      ∃ b' : Block c, exec wrapping ⟨c, b⟩ = .next ⟨c, b'⟩ ∧ b.KeepsFlags b' ∧ b'.err = b.err :=
  ⟨hwrapping.trans hplain.symm, d, hwrapping, exec_keeps_flags_and_err hplain hwf hf hi⟩

/-- Settles O18: each `.W` form completes in the block its plain form completes in. -/
theorem wraparoundFormsEqualPlainForms : Obligations.WraparoundFormsEqualPlainForms := by
  intro c b rd rs1 rs2 n
  simp only [List.forall_mem_cons, List.not_mem_nil, false_implies, implies_true, and_true]
  refine ⟨?and, ?shl, ?shr⟩
  case and => exact exec_eq_and_keeps_flags (exec_andW b rd rs1 rs2) (exec_and b rd rs1 rs2) rfl rfl nofun
  case shl => exact exec_eq_and_keeps_flags (exec_shlW b rd rs1 n) (exec_shl b rd rs1 n) rfl rfl nofun
  case shr => exact exec_eq_and_keeps_flags (exec_shrW b rd rs1 n) (exec_shr b rd rs1 n) rfl rfl nofun

end Sys2Proof.Machine
end

section
/-! What every step does (60_exceptions.md R193, R210): it completes at the same build, takes the host's next move, and
leaves an `err` that only `err` before it and that move's public part determine. -/

namespace Sys2Proof.Machine

variable {c : Params} {b b' : Block c}

/-- R193: every step ends in a next state at the same build. -/
theorem step_next (b : Block c) : ∃ b' : Block c, step ⟨c, b⟩ = .next ⟨c, b'⟩ := by
  match hp : b.pending with
  | [] => exact ⟨_, step_idle b hp⟩
  | .reset :: rest => exact ⟨_, step_reset b hp⟩
  | .issue cmd :: rest =>
    obtain ⟨b', hstep, -⟩ := step_issue_flags hp
    exact ⟨b', hstep⟩

theorem step_pending (h : step ⟨c, b⟩ = .next ⟨c, b'⟩) : b'.pending = b.pending.tail := by
  rcases step_cases h with ⟨hp, ht⟩ | ⟨_, hp, ht⟩ | ⟨_, _, _, hp, _, ht⟩ | ⟨_, _, _, _, hp, _, hexec, ht⟩
  · cases ht; rw [hp]; rfl
  · cases ht; rw [hp]; rfl
  · cases ht; rw [hp]; rfl
  · cases ht; rw [hp]; exact exec_pending hexec

/-- `err` after a step from a block with `err = e`, by the public parts of the host's moves: idle time keeps it, a reset
clears it (R210), a word sets it exactly if it is illegal (R190). `step_err` ties this to `step`. -/
def errAfter (L : Nat) (e : Bool) : List (Option CmdWord) → Bool
  | [] => e
  | none :: _ => false
  | some w :: _ => e || !(decode L w).isOk

theorem step_err (h : step ⟨c, b⟩ = .next ⟨c, b'⟩) :
    b'.err = errAfter c.LIMBS b.err (b.pending.map HostMove.publicPart) := by
  rcases step_cases h with ⟨hp, ht⟩ | ⟨_, hp, ht⟩ | ⟨_, _, _, hp, hd, ht⟩ | ⟨_, _, _, _, hp, hd, hexec, ht⟩
  · cases ht; rw [hp]; rfl
  · cases ht; rw [hp]; rfl
  · cases ht; rw [hp]; simp [errAfter, HostMove.publicPart, hd, Except.isOk, Except.toBool]
  · cases ht; rw [hp, exec_err hexec, wf_of_decode hd]
    simp [errAfter, HostMove.publicPart, hd, Except.isOk, Except.toBool]

/-- Settles O10. -/
theorem idleStepChangesNothing : Obligations.IdleStepChangesNothing :=
  fun _ => step_idle

/-- Settles O11: `step_next` for the steps; `exec_next` and `exec_err` for the commands. -/
theorem noCommandFailsBecauseOfData : Obligations.NoCommandFailsBecauseOfData := by
  refine ⟨fun ⟨c, b⟩ => ?_, fun c b i => ?_⟩
  · obtain ⟨b', hstep⟩ := step_next b
    exact ⟨⟨c, b'⟩, hstep, rfl⟩
  · obtain ⟨b', hexec⟩ := exec_next b i
    exact ⟨b', hexec, exec_err hexec⟩

/-- Settles O9: `Block.hostReset` is the state after reset with the later moves to come, and each other kind of step keeps
an `err` that is set. -/
theorem hostResetIsTheOnlyWayToClearErr : Obligations.HostResetIsTheOnlyWayToClearErr := by
  constructor
  · intro c b rest hp
    obtain ⟨-, -, -, hunspecified⟩ := resetLeavesFlagsClearAndLimbsUnspecified c
    exact ⟨_, step_reset b hp, rfl, rfl, rfl, hunspecified, rfl⟩
  · rintro ⟨c, b⟩ t hstep hset hclear
    rcases step_cases hstep with ⟨_, rfl⟩ | ⟨rest, hp, _⟩ | ⟨_, _, _, _, _, rfl⟩ | ⟨_, _, _, b', _, _, hexec, rfl⟩
    · exact absurd hset (Bool.eq_false_iff.1 hclear)
    · exact ⟨rest, hp⟩
    · cases hclear
    · have herr : b'.err = true := by rw [exec_err hexec, Block.accept_err, hset, Bool.true_or]
      exact absurd herr (Bool.eq_false_iff.1 hclear)

end Sys2Proof.Machine
end

section
/-! Timing safety (70_reset_and_hazards.md R218): two runs that agree in public agree in public after each step, and show
the same. -/

namespace Sys2Proof.Machine

variable {c : Params} {a b a' b' : Block c}

/-- What a step shows depends on the public part of the moves and on `err` after it. -/
theorem observe_congr (hpublic : a.pending.map HostMove.publicPart = b.pending.map HostMove.publicPart)
    (herr : a'.err = b'.err) : observe ⟨c, a⟩ ⟨c, a'⟩ = observe ⟨c, b⟩ ⟨c, b'⟩ := by
  match ha : a.pending, hb : b.pending with
  | [], [] => simp only [observe, ha, hb, herr]
  | .reset :: _, .reset :: _ => simp only [observe, ha, hb, herr]
  | .issue x :: _, .issue y :: _ =>
    have hword : x.word = y.word := by simp_all [HostMove.publicPart]
    simp only [observe, ha, hb, hword, herr]
  | [], _ :: _ | _ :: _, [] => simp [ha, hb] at hpublic
  | .reset :: _, .issue _ :: _ | .issue _ :: _, .reset :: _ => simp [ha, hb, HostMove.publicPart] at hpublic

theorem step_keeps_samePublic (h : a.SamePublic b) (ha : step ⟨c, a⟩ = .next ⟨c, a'⟩)
    (hb : step ⟨c, b⟩ = .next ⟨c, b'⟩) : a'.SamePublic b' := by
  obtain ⟨herr, hpublic⟩ := h
  constructor
  · rw [step_err ha, step_err hb, herr, hpublic]
  · rw [step_pending ha, step_pending hb, List.map_tail, List.map_tail, hpublic]

/-- A trace of one step more. -/
theorem trace_succ {s t : State} (k : Nat) (h : step s = .next t) : trace (k + 1) s = observe s t :: trace k t := by
  simp only [trace, h]

/-- Settles O33, by induction on the length of the run, for every two blocks that agree in public. -/
theorem publicTraceIsIndependentOfSecrets : Obligations.PublicTraceIsIndependentOfSecrets := by
  intro c a b k
  induction k generalizing a b with
  | zero => exact fun _ => rfl
  | succ k ih =>
    intro h
    obtain ⟨a', ha⟩ := step_next a
    obtain ⟨b', hb⟩ := step_next b
    have h' : a'.SamePublic b' := step_keeps_samePublic h ha hb
    have htail : trace k ⟨c, a'⟩ = trace k ⟨c, b'⟩ := ih a' b' h'
    obtain ⟨-, hpublic⟩ := h
    obtain ⟨herr', -⟩ := h'
    rw [trace_succ k ha, trace_succ k hb, observe_congr hpublic herr', htail]

end Sys2Proof.Machine
end

section
/-! Limb transfer and status (47_transfer_status.md R180 to R184): LDL, STL, RDC and RDS, and the data words of every
command. -/

namespace Sys2Proof.Machine

variable {c : Params} {b b' : Block c} {i : Instr}

/-- R190: a command whose operands break R64's constraint is an illegal command. -/
theorem exec_of_not_wf (b : Block c) (h : i.wf c.LIMBS = false) : exec i ⟨c, b⟩ = .next ⟨c, b.illegal⟩ := by
  cases i with
  | ldl r idx => rw [exec_ldl, loadLimb_of_not_lt b r (of_decide_eq_false h)]
  | stl r idx => rw [exec_stl, storeLimb_of_not_lt b r (of_decide_eq_false h)]
  | shlw rl rh n =>
    obtain rfl : rl = rh := of_not_not (of_decide_eq_false h)
    rw [exec_shlw, wideShift_self]
  | _ => cases h

/-! ## The four commands -/

theorem Block.keepsBut_writeLimb (b : Block c) (r : RegNum) (j : Fin c.LIMBS) (x : Word c.W) :
    b.KeepsBut (b.writeLimb r j x) [r] :=
  ⟨fun q hq => b.writeLimb_other j x (by simpa using hq), rfl, rfl, rfl⟩

/-- Settles O24: in range LDL is `Block.writeLimb`, out of range an illegal command. -/
theorem ldlWritesOneLimb : Obligations.LdlWritesOneLimb := by
  intro c b r idx
  refine ⟨fun h => ?_, fun h => ?_⟩
  · have hexec := exec_ldl b r idx
    rw [loadLimb_of_lt b r h] at hexec
    have hother (j : Fin c.LIMBS) (hj : j.val ≠ idx.toNat) :
        (b.writeLimb r ⟨idx.toNat, h⟩ b.wdata).cell r j = b.cell r j := by
      rw [Block.cell_writeLimb, if_neg fun e => hj (Fin.ext_iff.1 e.2).symm]
    exact ⟨_, hexec, b.readLimb_writeLimb_same r _ b.wdata, hother, ⟨rfl, rfl⟩, rfl, b.keepsBut_writeLimb r _ _⟩
  · exact ⟨_, exec_of_not_wf b (decide_eq_false h.not_gt), b.onlyErr_illegal⟩

/-- Settles O25: STL writes `rdata`, and the counter of draws when the limb is unspecified. -/
theorem stlReturnsOneLimb : Obligations.StlReturnsOneLimb := by
  intro c b r idx
  refine ⟨fun h x hx => ?_, fun h hx => ?_, fun h => ?_⟩
  · rw [exec_stl, storeLimb_some h hx]
    rfl
  · have hexec := exec_stl b r idx
    rw [storeLimb_none h hx] at hexec
    exact ⟨_, hexec, ⟨rfl, rfl⟩, fun _ _ => rfl, rfl, rfl, rfl⟩
  · exact ⟨_, exec_of_not_wf b (decide_eq_false h.not_gt), b.onlyErr_illegal⟩

theorem flagBit_eq_toNat (x : Bool) : flagBit x = x.toNat := by cases x <;> rfl

/-- The three bits of STATUS are below `2^3`. -/
theorem flag_sum_lt (e k v : Bool) : e.toNat * 4 + k.toNat * 2 + v.toNat < 2 ^ 3 := by
  have he := e.toNat_le
  have hk := k.toNat_le
  have hv := v.toNat_le
  omega

/-- R28: STATUS fits a word of any build, as R7 has `W` at least 8. -/
theorem Block.toNat_status (b : Block c) :
    b.status.toNat = b.err.toNat * 4 + (decide (b.carry ≠ 0)).toNat * 2 + b.valid.toNat := by
  have hW : 2 ^ 3 ≤ 2 ^ c.W := Nat.pow_le_pow_right (by decide) (le_trans (by decide) c.wide_enough)
  simp only [Block.status, flagBit_eq_toNat, isNonzero, BitVec.toNat_ofNat]
  exact Nat.mod_eq_of_lt ((flag_sum_lt _ _ _).trans_le hW)

theorem Block.getLsbD_status (b : Block c) {j : Nat} (hj : 3 ≤ j) : b.status.getLsbD j = false := by
  apply Nat.testBit_lt_two_pow
  rw [Block.toNat_status]
  exact (flag_sum_lt _ _ _).trans_le (Nat.pow_le_pow_right (by decide) hj)

/-- Settles O26: the word RDS returns is `Block.status`. -/
theorem rdcAndRdsReadTheFlags : Obligations.RdcAndRdsReadTheFlags :=
  fun _ b => ⟨rfl, b.status, rfl, b.toNat_status, fun _ => b.getLsbD_status⟩

/-! ## The data words of every command (R184) -/

theorem regCells_ne_nil {L : Nat} (hL : 1 ≤ L) (r : RegNum) : regCells L r ≠ [] := by
  simp [regCells, Nat.ne_of_gt hL]

/-- The well-formed commands that write no limb are STL, RDC and RDS. -/
theorem reports_of_cellsWritten_eq_nil {L : Nat} (hL : 1 ≤ L) (hwf : i.wf L = true) (hw : cellsWritten L i = []) :
    (∃ r idx, i = .stl r idx) ∨ i = .rdc ∨ i = .rds := by
  cases i with
  | stl r idx => exact .inl ⟨r, idx, rfl⟩
  | rdc => exact .inr (.inl rfl)
  | rds => exact .inr (.inr rfl)
  | ldl r idx => simp [cellsWritten, of_decide_eq_true hwf] at hw
  | shlw rl rh n =>
    rw [cellsWritten, if_neg (of_decide_eq_true hwf), List.append_eq_nil_iff] at hw
    exact absurd hw.1 (regCells_ne_nil hL rl)
  | and rd | andW rd | andF rd | shl1c rd | shl rd | shlW rd | shlF rd | shr rd | shrW rd | shrF rd =>
    exact absurd hw (regCells_ne_nil hL rd)

theorem exec_rdata (h : exec i ⟨c, b⟩ = .next ⟨c, b'⟩) (hstl : ∀ r idx, i ≠ .stl r idx) (hrdc : i ≠ .rdc)
    (hrds : i ≠ .rds) : b'.rdata = 0 := by
  cases exec_effect h with
  | report x hwf hw =>
    rcases reports_of_cellsWritten_eq_nil c.has_limb hwf hw with ⟨r, idx, hi⟩ | hi | hi
    · exact absurd hi (hstl r idx)
    · exact absurd hi hrdc
    · exact absurd hi hrds
  | reportFree r => exact absurd rfl (hstl r _)
  | illegal | load | plain | flagged | shiftOne | shiftOneFree | wide => rfl

/-- The block with another data word latched (R11). -/
def Block.withData (b : Block c) (d : Word c.W) : Block c := { b with wdata := d }

theorem storeLimb_withData (b : Block c) (d : Word c.W) (r : RegNum) (idx : Imm18) :
    storeLimb r idx (b.withData d) = (storeLimb r idx b).withData d := by
  by_cases hlt : idx.toNat < c.LIMBS
  · have hread : (b.withData d).readLimb r ⟨idx.toNat, hlt⟩ = b.readLimb r ⟨idx.toNat, hlt⟩ := rfl
    cases hx : b.readLimb r ⟨idx.toNat, hlt⟩ with
    | some x => rw [storeLimb_some hlt hx, storeLimb_some hlt (hread.trans hx)]; rfl
    | none => rw [storeLimb_none hlt hx, storeLimb_none hlt (hread.trans hx)]; rfl
  · rw [storeLimb_of_not_lt _ r hlt, storeLimb_of_not_lt _ r hlt]; rfl

theorem shiftOneCarry_withData (b : Block c) (d : Word c.W) (rd rs1 : RegNum) :
    shiftOneCarry rd rs1 (b.withData d) = (shiftOneCarry rd rs1 b).withData d := by
  have hread : (b.withData d).readReg rs1 = b.readReg rs1 := rfl
  cases hx : b.readReg rs1 with
  | some x => rw [shiftOneCarry_some hx, shiftOneCarry_some (hread.trans hx)]; rfl
  | none => rw [shiftOneCarry_none hx, shiftOneCarry_none (hread.trans hx)]; rfl

theorem wideShift_withData (b : Block c) (d : Word c.W) (rl rh : RegNum) (n : Imm18) :
    wideShift rl rh n (b.withData d) = (wideShift rl rh n b).withData d := by
  by_cases hne : rl = rh
  · subst hne
    rw [wideShift_self, wideShift_self]; rfl
  · have hl : (b.withData d).readReg rl = b.readReg rl := rfl
    have hh : (b.withData d).readReg rh = b.readReg rh := rfl
    cases hx : b.readReg rl with
    | none => rw [wideShift_none hne (.inl hx), wideShift_none hne (.inl (hl.trans hx))]; rfl
    | some x =>
      cases hy : b.readReg rh with
      | none => rw [wideShift_none hne (.inr hy), wideShift_none hne (.inr (hh.trans hy))]; rfl
      | some y => rw [wideShift_some hne hx hy, wideShift_some hne (hl.trans hx) (hh.trans hy)]; rfl

/-- R184: only LDL reads the data word. -/
theorem exec_withData (d : Word c.W) (h : exec i ⟨c, b⟩ = .next ⟨c, b'⟩) (hldl : ∀ r idx, i ≠ .ldl r idx) :
    exec i ⟨c, b.withData d⟩ = .next ⟨c, b'.withData d⟩ := by
  cases i with
  | ldl r idx => exact absurd rfl (hldl r idx)
  | stl r idx => cases h; rw [exec_stl, storeLimb_withData]
  | shl1c rd rs1 => cases h; rw [exec_shl1c, shiftOneCarry_withData]
  | shlw rl rh n => cases h; rw [exec_shlw, wideShift_withData]
  | rdc | rds | and | andW | andF | shl | shlW | shlF | shr | shrW | shrF => cases h; rfl

/-- Settles O27: `exec_rdata`, `exec_of_not_wf` and `exec_withData`, in the order of its clauses. -/
theorem dataWordDefaults : Obligations.DataWordDefaults := by
  refine ⟨fun _ _ _ _ => exec_rdata, fun c b b' i h hwf => ?_, fun _ _ _ _ d h => exec_withData d h⟩
  rw [exec_of_not_wf b hwf] at h
  cases h
  rfl

end Sys2Proof.Machine
end

section
/-! Commands on written sources (70_reset_and_hazards.md R212; log 15): they draw no free value, and every limb they write
is specified. -/

namespace Sys2Proof.Machine

variable {c : Params} {b b' : Block c} {i : Instr}

/-- `b'` is reached from `b` with no free value drawn, and every limb declared written by `i` is written in it. -/
def SpecifiedBy (i : Instr) (b b' : Block c) : Prop :=
  b'.draws = b.draws ∧
    ∀ (r : RegNum) (k : Fin c.LIMBS), (⟨r, k.val⟩ : CellRef) ∈ cellsWritten c.LIMBS i → (b'.cell r k).written = true

/-- A register whose limbs are all read by the command has a value when its sources are written. -/
theorem Block.SourcesWritten.readReg (h : b.SourcesWritten i) {r : RegNum}
    (hr : ∀ k : Fin c.LIMBS, (⟨r, k.val⟩ : CellRef) ∈ cellsRead c.LIMBS i) : ∃ x, b.readReg r = some x := by
  have hcells : ∀ k, (b.cell r k).written = true := fun k => h r k (hr k)
  exact ⟨_, if_pos hcells⟩

/-- Every limb of a register written with a value is written. -/
theorem Block.written_writeReg_some (b : Block c) (r : RegNum) (x : UInt c.W c.LIMBS) (k : Fin c.LIMBS) :
    ((b.writeReg r (some x)).cell r k).written = true := by
  rw [Block.cell_writeReg, if_pos rfl, Fin.getElem_fin, BigReg.ofValue_some]

theorem specifiedBy_of_no_write (hw : cellsWritten c.LIMBS i = []) (hdraws : b'.draws = b.draws) : SpecifiedBy i b b' :=
  ⟨hdraws, fun r k hk => absurd hk (by simp [hw])⟩

theorem specifiedBy_writeReg {rd : RegNum} {x : UInt c.W c.LIMBS} (hw : cellsWritten c.LIMBS i = regCells c.LIMBS rd)
    (hdraws : b'.draws = b.draws) (hu : b'.u = (b.writeReg rd (some x)).u) : SpecifiedBy i b b' := by
  refine ⟨hdraws, fun r k hk => ?_⟩
  rw [hw, mem_regCells] at hk
  subst hk
  rw [Block.cell_congr (b := b.writeReg r (some x)) (r := r) (by rw [hu]) k]
  exact b.written_writeReg_some r x k

theorem specifiedBy_binary {f : UInt c.W c.LIMBS → UInt c.W c.LIMBS → UInt c.W c.LIMBS} {rd rs1 rs2 : RegNum}
    (h : b.SourcesWritten i) (hr : cellsRead c.LIMBS i = regCells c.LIMBS rs1 ++ regCells c.LIMBS rs2)
    (hw : cellsWritten c.LIMBS i = regCells c.LIMBS rd) : SpecifiedBy i b (b.binary f rd rs1 rs2) := by
  obtain ⟨x, hx⟩ := h.readReg (r := rs1) fun k => by simp [hr, mem_regCells]
  obtain ⟨y, hy⟩ := h.readReg (r := rs2) fun k => by simp [hr, mem_regCells]
  rw [b.binary_some hx hy]
  exact specifiedBy_writeReg hw rfl rfl

theorem specifiedBy_unary {f : UInt c.W c.LIMBS → UInt c.W c.LIMBS} {rd rs1 : RegNum} (h : b.SourcesWritten i)
    (hr : cellsRead c.LIMBS i = regCells c.LIMBS rs1) (hw : cellsWritten c.LIMBS i = regCells c.LIMBS rd) :
    SpecifiedBy i b (b.unary f rd rs1) := by
  obtain ⟨x, hx⟩ := h.readReg (r := rs1) fun k => by simp [hr, mem_regCells]
  rw [b.unary_some hx]
  exact specifiedBy_writeReg hw rfl rfl

theorem specifiedBy_loadLimb (b : Block c) (r : RegNum) {idx : Imm18} (hlt : idx.toNat < c.LIMBS) :
    SpecifiedBy (.ldl r idx) b (loadLimb r idx b) := by
  rw [loadLimb_of_lt b r hlt]
  refine ⟨rfl, fun q k hk => ?_⟩
  simp only [cellsWritten, if_pos hlt, List.mem_singleton, CellRef.mk.injEq] at hk
  obtain ⟨rfl, hk⟩ := hk
  obtain rfl : k = ⟨idx.toNat, hlt⟩ := Fin.ext hk
  have hcell := (Block.readLimb_eq_some _).1 (b.readLimb_writeLimb_same q ⟨idx.toNat, hlt⟩ b.wdata)
  exact congrArg LimbCell.written hcell

theorem specifiedBy_storeLimb {r : RegNum} {idx : Imm18} (hlt : idx.toNat < c.LIMBS)
    (h : b.SourcesWritten (.stl r idx)) : SpecifiedBy (.stl r idx) b (storeLimb r idx b) := by
  have hwritten : (b.cell r ⟨idx.toNat, hlt⟩).written = true := h r ⟨idx.toNat, hlt⟩ (by simp [cellsRead, hlt])
  rw [storeLimb_some hlt (if_pos hwritten)]
  exact specifiedBy_of_no_write rfl rfl

theorem specifiedBy_shiftOneCarry {rd rs1 : RegNum} (h : b.SourcesWritten (.shl1c rd rs1)) :
    SpecifiedBy (.shl1c rd rs1) b (shiftOneCarry rd rs1 b) := by
  obtain ⟨x, hx⟩ := h.readReg (r := rs1) fun k => (mem_regCells k).2 rfl
  rw [shiftOneCarry_some hx]
  exact specifiedBy_writeReg rfl rfl rfl

theorem specifiedBy_wideShift {rl rh : RegNum} {n : Imm18} (hne : rl ≠ rh) (h : b.SourcesWritten (.shlw rl rh n)) :
    SpecifiedBy (.shlw rl rh n) b (wideShift rl rh n b) := by
  obtain ⟨x, hx⟩ := h.readReg (r := rl) fun k => by simp [cellsRead, hne, mem_regCells]
  obtain ⟨y, hy⟩ := h.readReg (r := rh) fun k => by simp [cellsRead, hne, mem_regCells]
  rw [wideShift_some hne hx hy]
  refine ⟨rfl, fun r k hk => ?_⟩
  simp only [cellsWritten, if_neg hne, List.mem_append, mem_regCells] at hk
  rcases hk with rfl | rfl
  · have hkept := Block.cell_writeReg_other (b.writeReg r (some (shiftLeftVartimeWide x y n.toNat).1))
      (some (shiftLeftVartimeWide x y n.toNat).2) hne k
    exact (congrArg LimbCell.written hkept).trans (b.written_writeReg_some r _ k)
  · exact Block.written_writeReg_some _ r _ k

theorem exec_specifiedBy (hwf : i.wf c.LIMBS = true) (hs : b.SourcesWritten i) (h : exec i ⟨c, b⟩ = .next ⟨c, b'⟩) :
    SpecifiedBy i b b' := by
  cases i with
  | ldl r idx => cases h; exact specifiedBy_loadLimb b r (of_decide_eq_true hwf)
  | stl r idx => cases h; exact specifiedBy_storeLimb (of_decide_eq_true hwf) hs
  | rdc | rds => cases h; exact specifiedBy_of_no_write rfl rfl
  | and rd rs1 rs2 | andW rd rs1 rs2 | andF rd rs1 rs2 =>
    cases h; exact specifiedBy_binary (f := bitand) (rs1 := rs1) (rs2 := rs2) hs rfl rfl
  | shl rd rs1 n | shlW rd rs1 n | shlF rd rs1 n =>
    cases h; exact specifiedBy_unary (f := fun x => shiftLeftVartime x n.toNat) (rs1 := rs1) hs rfl rfl
  | shr rd rs1 n | shrW rd rs1 n | shrF rd rs1 n =>
    cases h; exact specifiedBy_unary (f := fun x => shiftRightVartime x n.toNat) (rs1 := rs1) hs rfl rfl
  | shl1c rd rs1 => cases h; exact specifiedBy_shiftOneCarry hs
  | shlw rl rh n => cases h; exact specifiedBy_wideShift (of_decide_eq_true hwf) hs

/-- Settles O29: written sources have a value, so no command takes the branch that draws a free one. -/
theorem writtenSourcesGiveSpecifiedResults : Obligations.WrittenSourcesGiveSpecifiedResults := by
  intro c b i hwf hs
  obtain ⟨b', hexec⟩ := exec_next b i
  exact ⟨b', hexec, exec_specifiedBy hwf hs hexec⟩

end Sys2Proof.Machine
end
